-- ==== Sys2Proof/Word.lean ====
section
/-! DEFINITION. The word of the Intcode core and its signed reading (spec/00_scope.md R6, R7). -/

namespace Sys2Proof

/-- R6: a word is a signed integer held in 64 bits in two's complement; its value is `w.toInt`. -/
abbrev Word := BitVec 64

/-- The word whose value is `z`, for a `z` that is a word (R6); callers check the range first. -/
abbrev Word.ofInt (z : Int) : Word := BitVec.ofInt 64 z

end Sys2Proof
end

