-- ==== Sys2Proof/Config.lean ====
section
/-! DEFINITION. The implementation parameters of spec/00_scope.md Table 00-A (R5).
The parameters of Table 00-A that are no number are built into the definitions that carry them: `MEM_VARIANT = sparse`
(Machine/Ops.lean, `Memory.read` and `Memory.write`), `INQ_CAPACITY` and `OUTBUF_CAPACITY` unbounded (Machine/State.lean,
two lists), `OVERFLOW_POLICY = fault` (Machine/Flags.lean, `narrow`), `RESERVED_DIGIT_POLICY = fault` (Decode.lean,
`decodeWord`). The spec leaves no value open, so there is no free value here. -/

namespace Sys2Proof.Config

/-- Table 00-A `XLEN`: the width of a word in bits. -/
def xlen : Nat := 64

/-- Table 00-A `WMIN`: the least word, `-2^63`. -/
abbrev wMin : Int := -9223372036854775808

/-- Table 00-A `WMAX`: the greatest word, `2^63 - 1`. -/
abbrev wMax : Int := 9223372036854775807

/-- Table 00-A `ADDR_MAX`: the greatest address, `2^63 - 1`. -/
abbrev addrMax : Nat := 9223372036854775807

/-- Table 00-A `NUM_OPCODES`. -/
def numOpcodes : Nat := 10

/-- Table 00-A `NUM_MODES`. -/
def numModes : Nat := 3

/-- Table 00-A `MAX_OPERANDS`. -/
def maxOperands : Nat := 3

end Sys2Proof.Config
end

