-- ==== Sys2Proof/Syntax.lean ====
section
/-! DEFINITION. The instructions of the Intcode core as decoded terms (spec/30_encoding.md Tables 30-B and 30-C,
spec/40_step_fetch_decode_resolve.md R113, R116). One constructor of `Instr` per row of spec/opcode_table.json. -/

namespace Sys2Proof

/-- R82: the three parameter modes. -/
inductive Mode where
  /-- digit 0 -/
  | position
  /-- digit 1 -/
  | immediate
  /-- digit 2 -/
  | relative
deriving DecidableEq, Repr

/-- R116: an operand is a mode and an operand word; the source calls it an Argument. -/
structure Arg where
  mode : Mode
  word : Word
deriving DecidableEq, Repr

/-- The ten operation selectors (Table 30-C). -/
inductive Opcode where
  | add | mul | inp | out | jt | jf | lt | eq | arb | hlt
deriving DecidableEq, Repr

/-- A fully typed instruction (R113): its operation and its operands, in the operand order of Table 30-C. A destination is an
`Arg` like any other, as in the source; that it is not immediate is checked by `Instr.WellFormed` (R83). -/
inductive Instr where
  /-- ADD, opcode 1 (R131) -/
  | add (a b dest : Arg)
  /-- MUL, opcode 2 (R132) -/
  | mul (a b dest : Arg)
  /-- IN, opcode 3 (R140) -/
  | inp (dest : Arg)
  /-- OUT, opcode 4 (R141) -/
  | out (a : Arg)
  /-- JT, opcode 5 (R151) -/
  | jt (cond target : Arg)
  /-- JF, opcode 6 (R152) -/
  | jf (cond target : Arg)
  /-- LT, opcode 7 (R133) -/
  | lt (a b dest : Arg)
  /-- EQ, opcode 8 (R134) -/
  | eq (a b dest : Arg)
  /-- ARB, opcode 9 (R160) -/
  | arb (a : Arg)
  /-- HLT, opcode 99 (R165) -/
  | hlt
deriving DecidableEq, Repr

end Sys2Proof
end

