-- ==== Sys2Proof/WellFormed.lean ====
section
/-! DEFINITION. Which instruction terms the encoding admits (spec/30_encoding.md R83). -/

namespace Sys2Proof

/-- R83: the destination operand of an instruction, always its last: operand 3 of ADD, MUL, LT, EQ and operand 1 of IN. -/
def Instr.dest? : Instr → Option Arg
  | .add _ _ d => some d
  | .mul _ _ d => some d
  | .inp d => some d
  | .out _ => none
  | .jt _ _ => none
  | .jf _ _ => none
  | .lt _ _ d => some d
  | .eq _ _ d => some d
  | .arb _ => none
  | .hlt => none

/-- R83: a destination operand is in mode 0 or mode 2 only. Everything else the encoding asks (three modes, whole operand
words) holds of every term by its type. -/
abbrev Instr.WellFormed (i : Instr) : Prop := ∀ d ∈ i.dest?, d.mode ≠ .immediate

end Sys2Proof
end

