-- ==== Sys2Proof/Decode.lean ====
section
/-! DEFINITION. The decoder, total on every word and on every list of cells (spec/30_encoding.md R80 to R92), and the encoder
from the same tables (Table 30-B, Table 30-C, R94). The fields of an instruction word are DECIMAL digits of its value. -/

namespace Sys2Proof

/-! ## The tables -/

/-- Table 30-C, column opcode. -/
def Opcode.code : Opcode → Nat
  | .add => 1
  | .mul => 2
  | .inp => 3
  | .out => 4
  | .jt => 5
  | .jf => 6
  | .lt => 7
  | .eq => 8
  | .arb => 9
  | .hlt => 99

/-- Table 30-C read the other way: the operation with a given opcode value, none for the values R87 calls illegal. -/
def Opcode.ofCode? (c : Nat) : Option Opcode :=
  [Opcode.add, .mul, .inp, .out, .jt, .jf, .lt, .eq, .arb, .hlt].find? fun op => op.code == c

/-- Table 30-C, column operand count. -/
def Opcode.operandCount : Opcode → Nat
  | .add => 3
  | .mul => 3
  | .inp => 1
  | .out => 1
  | .jt => 2
  | .jf => 2
  | .lt => 3
  | .eq => 3
  | .arb => 1
  | .hlt => 0

/-- R83, Table 30-B: the number of the destination operand, none for an instruction that writes no memory. -/
def Opcode.destOperand? : Opcode → Option Nat
  | .add => some 3
  | .mul => some 3
  | .inp => some 1
  | .out => none
  | .jt => none
  | .jf => none
  | .lt => some 3
  | .eq => some 3
  | .arb => none
  | .hlt => none

/-- R85: the length of an instruction in cells, 1 plus the operand count. -/
def Opcode.arity (op : Opcode) : Nat := 1 + op.operandCount

/-- R82: the digit that stands for a mode. -/
def Mode.digit : Mode → Nat
  | .position => 0
  | .immediate => 1
  | .relative => 2

/-- R82: the mode that a digit stands for; `decodeWord` asks only for digits it has found to be 0, 1 or 2. -/
def Mode.ofDigit (d : Nat) : Mode :=
  if d = 0 then .position else if d = 1 then .immediate else .relative

/-! ## The decoder of one instruction word -/

/-- The faults that `Decode` raises, with what each carries (R87, R88, R89, R90, R91; spec/60_exceptions.md Table 60-A). -/
inductive DecodeFault where
  /-- R87, R90: the opcode field, or the truncated remainder of a negative word -/
  | unknownOpcode (code : Int)
  /-- R88: the first offending mode digit -/
  | unknownParameterMode (digit : Nat)
  /-- R89: the whole instruction word -/
  | reservedEncoding (w : Word)
  /-- R91: the whole instruction word -/
  | immediateDestination (w : Word)
deriving DecidableEq, Repr

/-- What `Decode` returns: the operation and its modes (R92). The modes of operands the operation lacks are `position`, the
digit 0 that R89 requires. -/
structure Header where
  op : Opcode
  m1 : Mode
  m2 : Mode
  m3 : Mode
deriving DecidableEq, Repr

/-- R8 `dig(w, k)`: the decimal digit of weight `10^k`. -/
def dig (w k : Nat) : Nat := w / 10 ^ k % 10

/-- R92, the checks after the opcode, in the order written there: modes of existing operands (R88), reserved digits (R89),
immediate destination (R91). `ds` are the digits `m1, m2, m3`, `hi` is `w div 100000`. -/
def checkDigits (w : Word) (op : Opcode) (ds : List Nat) (hi : Nat) : Except DecodeFault Header :=
  match (ds.take op.operandCount).find? (2 < ·) with
  | some d => .error (.unknownParameterMode d)
  | none =>
    if (ds.drop op.operandCount).any (· != 0) || hi != 0 then
      .error (.reservedEncoding w)
    else if op.destOperand?.any (fun k => ds.getD (k - 1) 0 == 1) then
      .error (.immediateDestination w)
    else
      .ok ⟨op, .ofDigit (ds.getD 0 0), .ofDigit (ds.getD 1 0), .ofDigit (ds.getD 2 0)⟩

/-- R92 `Decode(w)`: total on words, looks at nothing but `w`. R90: a negative word carries the remainder truncated toward zero. -/
def decodeWord (w : Word) : Except DecodeFault Header :=
  if w.toInt < 0 then
    .error (.unknownOpcode (w.toInt.tmod 100))
  else
    match Opcode.ofCode? (w.toNat % 100) with
    | none => .error (.unknownOpcode (w.toNat % 100 : Nat))
    | some op => checkDigits w op [dig w.toNat 2, dig w.toNat 3, dig w.toNat 4] (w.toNat / 100000)

/-- R84, R113: the fully typed instruction, from the header and the operand words `p1, p2, …` in order. -/
def Header.instr (h : Header) (ps : List Word) : Instr :=
  match h.op with
  | .add => .add ⟨h.m1, ps.getD 0 0⟩ ⟨h.m2, ps.getD 1 0⟩ ⟨h.m3, ps.getD 2 0⟩
  | .mul => .mul ⟨h.m1, ps.getD 0 0⟩ ⟨h.m2, ps.getD 1 0⟩ ⟨h.m3, ps.getD 2 0⟩
  | .inp => .inp ⟨h.m1, ps.getD 0 0⟩
  | .out => .out ⟨h.m1, ps.getD 0 0⟩
  | .jt => .jt ⟨h.m1, ps.getD 0 0⟩ ⟨h.m2, ps.getD 1 0⟩
  | .jf => .jf ⟨h.m1, ps.getD 0 0⟩ ⟨h.m2, ps.getD 1 0⟩
  | .lt => .lt ⟨h.m1, ps.getD 0 0⟩ ⟨h.m2, ps.getD 1 0⟩ ⟨h.m3, ps.getD 2 0⟩
  | .eq => .eq ⟨h.m1, ps.getD 0 0⟩ ⟨h.m2, ps.getD 1 0⟩ ⟨h.m3, ps.getD 2 0⟩
  | .arb => .arb ⟨h.m1, ps.getD 0 0⟩
  | .hlt => .hlt

/-! ## The decoder of a list of cells -/

/-- Why a list of cells is no instruction. -/
inductive DecodeRefusal where
  /-- its first word does not decode (R86) -/
  | decodeFault (f : DecodeFault)
  /-- the list ends before the instruction does; the machine itself never meets this, its store has every cell (R51) -/
  | truncated (missing : Nat)
deriving DecidableEq, Repr

/-- R84, R92: decodes the instruction at the front of a list of cells and returns it with the cells after it. -/
def decode : List Word → Except DecodeRefusal (Instr × List Word)
  | [] => .error (.truncated 1)
  | w :: rest =>
    match decodeWord w with
    | .error f => .error (.decodeFault f)
    | .ok h =>
      if rest.length < h.op.operandCount then
        .error (.truncated (h.op.operandCount - rest.length))
      else
        .ok (h.instr (rest.take h.op.operandCount), rest.drop h.op.operandCount)

/-! ## The encoder -/

/-- The operation of an instruction. -/
def Instr.opcode : Instr → Opcode
  | .add _ _ _ => .add
  | .mul _ _ _ => .mul
  | .inp _ => .inp
  | .out _ => .out
  | .jt _ _ => .jt
  | .jf _ _ => .jf
  | .lt _ _ _ => .lt
  | .eq _ _ _ => .eq
  | .arb _ => .arb
  | .hlt => .hlt

/-- The operands of an instruction, operand 1 first. -/
def Instr.args : Instr → List Arg
  | .add a b d => [a, b, d]
  | .mul a b d => [a, b, d]
  | .inp d => [d]
  | .out a => [a]
  | .jt c t => [c, t]
  | .jf c t => [c, t]
  | .lt a b d => [a, b, d]
  | .eq a b d => [a, b, d]
  | .arb a => [a]
  | .hlt => []

/-- R85: the arity of an instruction, a function of its opcode only. -/
def Instr.arity (i : Instr) : Nat := i.opcode.arity

/-- The mode digit of operand `k + 1`, 0 when the instruction has no such operand (R89). -/
def modeDigit (args : List Arg) (k : Nat) : Nat :=
  match args[k]? with
  | some a => a.mode.digit
  | none => 0

/-- R94: `10000*m3 + 1000*m2 + 100*m1 + opcode`. -/
def Instr.headNat (i : Instr) : Nat :=
  10000 * modeDigit i.args 2 + 1000 * modeDigit i.args 1 + 100 * modeDigit i.args 0 + i.opcode.code

/-- The instruction word of an instruction (R94); for a legal instruction it is the word it was decoded from (R86), which is
what `ArithmeticOverflow` and `ImmediateDestination` carry. -/
def Instr.head (i : Instr) : Word := BitVec.ofNat 64 i.headNat

/-- R94, Table 30-B: the cells of an instruction, the instruction word first and then its operand words. -/
def encode (i : Instr) : List Word := i.head :: i.args.map Arg.word

/-! ## Words numbered by bits -/

/-- The cells of an instruction given as one number: cell `k` is bits `64*k` to `64*k + 63`, four cells being the longest
instruction (Table 30-C); the bits from `nbits` on are 0. -/
def tableCells (nbits w : Nat) : List Word :=
  [BitVec.ofNat 64 (w % 2 ^ nbits), BitVec.ofNat 64 (w % 2 ^ nbits / 2 ^ 64),
   BitVec.ofNat 64 (w % 2 ^ nbits / 2 ^ 128), BitVec.ofNat 64 (w % 2 ^ nbits / 2 ^ 192)]

/-- The instruction the decoder reads from `tableCells nbits w`, none where it refuses. -/
def decodeTableWord (nbits w : Nat) : Option Instr :=
  match decode (tableCells nbits w) with
  | .ok (i, _) => some i
  | .error _ => none

end Sys2Proof
end

