-- ==== Sys2Proof/Machine/State.lean ====
section
/-! DEFINITION. The state of one instance, `S = (M, pc, rb, INQ, OUTBUF, STATUS, FAULT)` (spec/10_state.md), as plain data, and
the state after reset (Table 10-C). -/

namespace Sys2Proof.Machine

/-- R50, R51: the memory store as a list of (address, word) pairs. An address it does not list reads as 0. Its canonical form is
`Memory.wf` (Machine/Ops.lean). One entry is one whole cell: R52 forbids a byte layout. -/
abbrev Memory := List (Nat × Word)

/-- R28, Table 10-B: the five values of `STATUS`. -/
inductive Status where
  /-- 0: constructed, never run -/
  | ready
  /-- 1: a run cycle is in progress -/
  | running
  /-- 2: the last run cycle ended at an IN with `INQ` empty -/
  | pendingInput
  /-- 3: the last run cycle ended at HLT -/
  | completed
  /-- 4: a run cycle ended with a fault; permanent until reset -/
  | faulted
deriving DecidableEq, Repr

/-- R190, Table 60-A: the fault causes, `none` for no fault recorded. -/
inductive FaultCause where
  /-- 0 -/
  | none
  /-- 1: raised at decode (R192) -/
  | unknownOpcode
  /-- 2: raised at decode (R193) -/
  | unknownParameterMode
  /-- 3: never raised by this hardware (R194) -/
  | indexOutOfRange
  /-- 4: never raised by the core (R195) -/
  | insufficientInput
  /-- 5: an address outside the range (R196) -/
  | addressRange
  /-- 6: raised at decode (R197) -/
  | immediateDestination
  /-- 7: a result that is not a word (R197) -/
  | arithmeticOverflow
  /-- 8: raised at decode (R197) -/
  | reservedEncoding
deriving DecidableEq, Repr

/-- R29, R191: the fault record `(cause, info)`; `info` is an integer because an address sum may need 65 bits. -/
structure FaultRecord where
  cause : FaultCause
  info : Int
deriving DecidableEq, Repr

/-- R29: the record that stands for no fault. -/
abbrev FaultRecord.clear : FaultRecord := ⟨.none, 0⟩

/-- The whole state of one instance (spec/10_state.md). -/
structure State where
  /-- `M` (R25, R51) -/
  mem : Memory
  /-- `pc` (R20): an unsigned 64-bit register, 0 to `2^63` -/
  pc : BitVec 64
  /-- `rb` (R23) -/
  rb : Word
  /-- `INQ` (R26), head first, unbounded -/
  inq : List Word
  /-- `OUTBUF` (R27), in the order produced, unbounded -/
  outbuf : List Word
  /-- `STATUS` (R28) -/
  status : Status
  /-- `FAULT` (R29) -/
  fault : FaultRecord
deriving DecidableEq, Repr

/-- The reasons a step of the model stops with no next state: there are none, and nothing raises one (safe). Every fault of the
spec has an entry the spec describes (R201), so it is a next state with `FAULT` and `STATUS` written (Machine/Ops.lean `raise`). -/
inductive Fault where
deriving DecidableEq, Repr

/-- The reasons an instruction has no meaning. -/
inductive Refusal where
  /-- Raised by an arm of `exec` whose instruction has no meaning yet (safe); no arm does. -/
  | notModelled (mnemonic : String)
deriving DecidableEq, Repr

/-- R32, Table 10-C: the state after reset. The reset is `NEW(image)` (R230); this is it with the empty image (R232), so memory
lists nothing. `State.new` (Machine/Transactions.lean) is the reset with any image. -/
def State.reset : State where
  mem := []
  pc := 0
  rb := 0
  inq := []
  outbuf := []
  status := .ready
  fault := .clear

end Sys2Proof.Machine
end

