-- ==== Sys2Proof/Machine/Ops.lean ====
section
/-! DEFINITION. The named operations over memory and registers, and the four ways a step ends (spec/00_scope.md R9):
`Next`, `Pause`, `Done` and the fault entry of spec/60_exceptions.md R201. -/

namespace Sys2Proof.Machine

/-- What a meaning answers. -/
abbrev Out := Host.Outcome State Fault Refusal

/-! ## The memory store (spec/20_memory.md) -/

/-- R53 `MemRead(a, 1)`: the word at `a`, 0 for a cell that is not listed. -/
def Memory.read : Memory → Nat → Word
  | [], _ => 0
  | (b, v) :: rest, a => if b = a then v else Memory.read rest a

/-- The store without its entry for `a`. -/
def Memory.erase (m : Memory) (a : Nat) : Memory := m.filter fun e => e.1 != a

/-- The store with `(a, v)` put before the first entry of a higher address. -/
def Memory.insert : Memory → Nat → Word → Memory
  | [], a, v => [(a, v)]
  | (b, u) :: rest, a, v =>
    if a < b then (a, v) :: (b, u) :: rest else (b, u) :: Memory.insert rest a v

/-- R54 `MemWrite(a, 1, v)`. Writing 0, what an unlisted cell reads as (R31), removes the entry, so that equal memories are
equal lists. -/
def Memory.write (m : Memory) (a : Nat) (v : Word) : Memory :=
  if v = 0 then m.erase a else (m.erase a).insert a v

/-- The canonical form: addresses strictly rising, no entry equal to what an unlisted address reads as, every address in the
range of R57. -/
abbrev Memory.wf (m : Memory) : Prop :=
  m.Pairwise (fun x y => x.1 < y.1) ∧ ∀ e ∈ m, e.2 ≠ 0 ∧ e.1 ≤ Config.addrMax

/-- Writes consecutive cells from address `a` up, none above `ADDR_MAX`. -/
def Memory.writeCells (m : Memory) (a : Nat) : List Word → Memory
  | [] => m
  | v :: vs => Memory.writeCells (if a ≤ Config.addrMax then m.write a v else m) (a + 1) vs

/-- The `k` cells from address `a` up. -/
def Memory.cells (m : Memory) (a k : Nat) : List Word := (List.range k).map fun j => m.read (a + j)

/-! ## State updates -/

/-- `MemWrite` on the state's store (R54). -/
def State.store (s : State) (a : Nat) (v : Word) : State := { s with mem := s.mem.write a v }

/-- R121: the sequential advance of `pc` by the arity decoded. -/
def State.advance (s : State) (arity : Nat) : State := { s with pc := s.pc + BitVec.ofNat 64 arity }

/-- R122: a taken jump sets `pc` to its target. -/
def State.jump (s : State) (t : BitVec 64) : State := { s with pc := t }

/-- R160: the new relative base. -/
def State.setRb (s : State) (v : Word) : State := { s with rb := v }

/-- R141: `OUTBUF ++ [v]`. -/
def State.emit (s : State) (v : Word) : State := { s with outbuf := s.outbuf ++ [v] }

/-- R140 `pop(INQ)`: what remains is `rest`. -/
def State.setInq (s : State) (rest : List Word) : State := { s with inq := rest }

/-! ## The ends of a step other than `Next` -/

/-- R201, the fault entry, with the end of the run cycle that goes with it (R172): `FAULT` and `STATUS` are written and nothing
else changes; `pc` stays at the faulting instruction. There is no return from it (R204): only `NEW` leaves `Faulted`. -/
def State.takeFault (s : State) (f : FaultRecord) : State := { s with fault := f, status := .faulted }

/-- R140, R173: the step pauses; the run cycle ends with `PendingInput`. -/
def State.pause (s : State) : State := { s with status := .pendingInput }

/-- R165, R173: the step is done; the run cycle ends with `Completed`. -/
def State.halt (s : State) : State := { s with status := .completed }

/-- `raise F(info)` (R8): the step ends by taking the fault. -/
def raise (s : State) (f : FaultRecord) : Out := .next (s.takeFault f)

/-! ## Fault records (spec/60_exceptions.md Table 60-A) -/

/-- Table 60-A, column code. -/
def FaultCause.code : FaultCause → Nat
  | .none => 0
  | .unknownOpcode => 1
  | .unknownParameterMode => 2
  | .indexOutOfRange => 3
  | .insufficientInput => 4
  | .addressRange => 5
  | .immediateDestination => 6
  | .arithmeticOverflow => 7
  | .reservedEncoding => 8

/-- Table 10-B, column code. -/
def Status.code : Status → Nat
  | .ready => 0
  | .running => 1
  | .pendingInput => 2
  | .completed => 3
  | .faulted => 4

/-- R196: `AddressRange(ea)` carries the offending address, untruncated. -/
def addressRange (ea : Int) : FaultRecord := ⟨.addressRange, ea⟩

/-- R197: `ArithmeticOverflow(w)` carries the instruction word. -/
def arithmeticOverflow (w : Word) : FaultRecord := ⟨.arithmeticOverflow, w.toInt⟩

/-- R191, R192, R193, R197: the record of a decode fault. -/
def decodeRecord : DecodeFault → FaultRecord
  | .unknownOpcode c => ⟨.unknownOpcode, c⟩
  | .unknownParameterMode d => ⟨.unknownParameterMode, d⟩
  | .reservedEncoding w => ⟨.reservedEncoding, w.toInt⟩
  | .immediateDestination w => ⟨.immediateDestination, w.toInt⟩

end Sys2Proof.Machine
end

