-- ==== Sys2Proof/Machine/Flags.lean ====
section
/-! DEFINITION. Conditions. The machine has no flags (spec/10_state.md R24): its conditions are the range test of an arithmetic
result, the truth word that LT and EQ store and the zero test of JT and JF. -/

namespace Sys2Proof.Machine

/-- R130, R135: a result that is a word is exact; one that is not a word has no value (`OVERFLOW_POLICY = fault`). -/
def narrow (r : Int) : Option Word :=
  if Config.wMin ≤ r ∧ r ≤ Config.wMax then some (Word.ofInt r) else none

/-- R133: `1 if a < b, else 0`, of signed words. -/
def lessThan (a b : Int) : Int := if a < b then 1 else 0

/-- R134: `1 if a = b, else 0`. -/
def equals (a b : Int) : Int := if a = b then 1 else 0

/-- R151: every non-zero word counts as true. -/
def jumpsOnNonZero (c : Word) : Bool := c != 0

/-- R152: the condition of JF. -/
def jumpsOnZero (c : Word) : Bool := c == 0

end Sys2Proof.Machine
end

