-- ==== Sys2Proof/Machine/Operands.lean ====
section
/-! DEFINITION. The operand resolver (spec/40_step_fetch_decode_resolve.md R116 to R120): every operand form of the machine. -/

namespace Sys2Proof.Machine

/-- R7, R58: an integer about to be used as an address is checked, never wrapped. -/
def checkAddress (ea : Int) : Except FaultRecord Nat :=
  if 0 ≤ ea ∧ ea ≤ Config.addrMax then .ok ea.toNat else .error (addressRange ea)

/-- R117, the address sum before the check, in the unbounded integers; an immediate operand names no cell. -/
def addressSum (rb : Word) (a : Arg) : Option Int :=
  match a.mode with
  | .position => some a.word.toInt
  | .immediate => none
  | .relative => some (rb.toInt + a.word.toInt)

/-- R118 `RdVal(mode, p)`: the value of a source operand. -/
def readValue (s : State) (a : Arg) : Except FaultRecord Word :=
  match addressSum s.rb a with
  | none => .ok a.word
  | some ea =>
    match checkAddress ea with
    | .error f => .error f
    | .ok addr => .ok (s.mem.read addr)

/-- R119 `WrAddr(mode, p)`: the cell a destination operand names; it is not dereferenced. Mode 1 does not reach here from the
decoder (R91); on a term that is not well formed the answer is the fault R91 gives its word `w`. -/
def writeAddress (s : State) (w : Word) (d : Arg) : Except FaultRecord Nat :=
  match addressSum s.rb d with
  | none => .error (decodeRecord (.immediateDestination w))
  | some ea => checkAddress ea

end Sys2Proof.Machine
end

