-- ==== Sys2Proof/Machine/Arithmetic.lean ====
section
/-! DEFINITION. ADD, MUL, LT, EQ (spec/41_arithmetic_compare.md). -/

namespace Sys2Proof.Machine

/-- R130 `F3op(m, p, f)`, for the instruction `i` with sources `a`, `b` and destination `d`: both sources, then the destination,
then the result in the unbounded integers, then the one write. -/
def binaryOp (i : Instr) (f : Int → Int → Int) (a b d : Arg) (s : State) : Out :=
  match readValue s a with
  | .error e => raise s e
  | .ok x =>
    match readValue s b with
    | .error e => raise s e
    | .ok y =>
      match writeAddress s i.head d with
      | .error e => raise s e
      | .ok addr =>
        match narrow (f x.toInt y.toInt) with
        | none => raise s (arithmeticOverflow i.head)
        | some r => .next ((s.store addr r).advance i.arity)

/-- R131 ADD. -/
def execAdd (a b d : Arg) (s : State) : Out := binaryOp (.add a b d) (· + ·) a b d s

/-- R132 MUL. -/
def execMul (a b d : Arg) (s : State) : Out := binaryOp (.mul a b d) (· * ·) a b d s

/-- R133 LT. -/
def execLt (a b d : Arg) (s : State) : Out := binaryOp (.lt a b d) lessThan a b d s

/-- R134 EQ. -/
def execEq (a b d : Arg) (s : State) : Out := binaryOp (.eq a b d) equals a b d s

end Sys2Proof.Machine
end

