-- ==== Sys2Proof/Machine/Control.lean ====
section
/-! DEFINITION. ARB (spec/44_relative_base.md) and HLT (spec/45_halt.md). -/

namespace Sys2Proof.Machine

/-- R160 ARB: adds to `rb`; its own operand sees the old `rb`. -/
def execArb (a : Arg) (s : State) : Out :=
  match readValue s a with
  | .error e => raise s e
  | .ok v =>
    match narrow (s.rb.toInt + v.toInt) with
    | none => raise s (arithmeticOverflow (Instr.arb a).head)
    | some r => .next ((s.setRb r).advance (Instr.arb a).arity)

/-- R165 HLT: the step is done and `pc` is not advanced (D11). -/
def execHlt (s : State) : Out := .next s.halt

end Sys2Proof.Machine
end

