-- ==== Sys2Proof/Machine/InputOutput.lean ====
section
/-! DEFINITION. IN, OUT (spec/42_input_output.md). -/

namespace Sys2Proof.Machine

/-- R140 IN: the empty-queue test comes before the destination is resolved (D27), and a destination that faults leaves the
queue as it was (D10). -/
def execIn (d : Arg) (s : State) : Out :=
  match s.inq with
  | [] => .next s.pause
  | v :: rest =>
    match writeAddress s (Instr.inp d).head d with
    | .error e => raise s e
    | .ok addr => .next (((s.setInq rest).store addr v).advance (Instr.inp d).arity)

/-- R141 OUT. -/
def execOut (a : Arg) (s : State) : Out :=
  match readValue s a with
  | .error e => raise s e
  | .ok v => .next ((s.emit v).advance (Instr.out a).arity)

end Sys2Proof.Machine
end

