-- ==== Sys2Proof/Machine/Jumps.lean ====
section
/-! DEFINITION. JT, JF (spec/43_jumps.md). -/

namespace Sys2Proof.Machine

/-- R150 `Jcc(m, p, taken)`, for the instruction `i`: both operands are resolved before the condition is tested; the target is a
value and is checked only when the jump is taken (D12). -/
def jumpIf (i : Instr) (taken : Word → Bool) (c t : Arg) (s : State) : Out :=
  match readValue s c with
  | .error e => raise s e
  | .ok x =>
    match readValue s t with
    | .error e => raise s e
    | .ok y =>
      if taken x then
        match checkAddress y.toInt with
        | .error e => raise s e
        | .ok addr => .next (s.jump (BitVec.ofNat 64 addr))
      else
        .next (s.advance i.arity)

/-- R151 JT. -/
def execJt (c t : Arg) (s : State) : Out := jumpIf (.jt c t) jumpsOnNonZero c t s

/-- R152 JF. -/
def execJf (c t : Arg) (s : State) : Out := jumpIf (.jf c t) jumpsOnZero c t s

end Sys2Proof.Machine
end

