-- ==== Sys2Proof/Machine/Fetch.lean ====
section
/-! DEFINITION. Fetch, decode and operand fetch (spec/40_step_fetch_decode_resolve.md R110 to R114). -/

namespace Sys2Proof.Machine

/-- R114: the operand words `k, k + 1, …`, `count` of them, in ascending order; the first cell above `ADDR_MAX` faults. -/
def fetchOperands (m : Memory) (pc : Nat) : Nat → Nat → Except FaultRecord (List Word)
  | _, 0 => .ok []
  | k, count + 1 =>
    if Config.addrMax < pc + k then
      .error (addressRange (pc + k : Nat))
    else
      match fetchOperands m pc (k + 1) count with
      | .error f => .error f
      | .ok ps => .ok (m.read (pc + k) :: ps)

/-- R110, the phases before execute: fetch (R111), decode (R112), operand fetch (R114). It changes no state. -/
def fetch (s : State) : Except FaultRecord Instr :=
  if Config.addrMax < s.pc.toNat then
    .error (addressRange s.pc.toNat)
  else
    match decodeWord (s.mem.read s.pc.toNat) with
    | .error f => .error (decodeRecord f)
    | .ok h =>
      match fetchOperands s.mem s.pc.toNat 1 h.op.operandCount with
      | .error f => .error f
      | .ok ps => .ok (h.instr ps)

end Sys2Proof.Machine
end

