-- ==== Sys2Proof/Machine/Step.lean ====
section
/-! DEFINITION. One step of the machine (spec/40_step_fetch_decode_resolve.md R110 with the end of the run cycle of
spec/46_run_cycle_host.md R172). -/

namespace Sys2Proof.Machine

/-- While a run cycle is in progress: fetch, decode, operand fetch, then the decoded instruction's meaning (R110); a fault of
those phases is taken as any other (R201). While none is in progress the core does nothing on its own (R170, R214; log 4). -/
def step (s : State) : Host.Outcome State Fault Refusal :=
  match s.status with
  | .running =>
    match fetch s with
    | .error f => raise s f
    | .ok i => exec i s
  | .ready => .next s
  | .pendingInput => .next s
  | .completed => .next s
  | .faulted => .next s

/-- `s` with the cells `tableCells nbits w` at the program counter and a run cycle in progress, so that the next step fetches
and runs that instruction (log 3). -/
def State.withFetchWord (s : State) (nbits w : Nat) : State :=
  { s with mem := s.mem.writeCells s.pc.toNat (tableCells nbits w), status := .running }

end Sys2Proof.Machine
end

