-- ==== Sys2Proof/Machine/Assembly.lean ====
section
/-! DEFINITION. The assembly notation of the listings (spec/30_encoding.md R94, R95; D21): a printer of instructions and an
assembler of programs. No rule of the machine reads it. -/

namespace Sys2Proof.Machine

/-- Table 30-C, column mnemonic. -/
def mnemonic : Opcode → String
  | .add => "ADD"
  | .mul => "MUL"
  | .inp => "IN"
  | .out => "OUT"
  | .jt => "JT"
  | .jf => "JF"
  | .lt => "LT"
  | .eq => "EQ"
  | .arb => "ARB"
  | .hlt => "HLT"

/-- R94: `[v]`, `#v`, `[rb+v]` or `[rb-v]`. -/
def argText (a : Arg) : String :=
  match a.mode with
  | .position => "[" ++ toString a.word.toInt ++ "]"
  | .immediate => "#" ++ toString a.word.toInt
  | .relative =>
    if a.word.toInt < 0 then "[rb-" ++ toString (-a.word.toInt) ++ "]" else "[rb+" ++ toString a.word.toInt ++ "]"

/-- R94: one line, a mnemonic followed by its operands separated by commas. -/
def instrText (i : Instr) : String :=
  match i.args with
  | [] => mnemonic i.opcode
  | args => mnemonic i.opcode ++ " " ++ ", ".intercalate (args.map argText)

/-- R94, R95: what may stand for `v`: a decimal integer, or a label with an offset. -/
inductive AsmValue where
  | number (z : Int)
  | label (name : String) (offset : Int)
deriving DecidableEq, Repr

/-- R94: an operand as it is written. -/
structure AsmArg where
  mode : Mode
  value : AsmValue
deriving DecidableEq, Repr

/-- R94, R95: a line of a listing, or the name of the line after it. -/
inductive AsmLine where
  | label (name : String)
  | instr (op : Opcode) (args : List AsmArg)
  | dw (values : List AsmValue)
deriving DecidableEq, Repr

/-- How many cells a line places (R85, R95). -/
def AsmLine.size : AsmLine → Nat
  | .label _ => 0
  | .instr op _ => op.arity
  | .dw vs => vs.length

/-- R95: the address of every name, for a listing whose first cell is at `a`. -/
def symbols : Nat → List AsmLine → List (String × Nat)
  | _, [] => []
  | a, .label name :: rest => (name, a) :: symbols a rest
  | a, .instr op _ :: rest => symbols (a + op.arity) rest
  | a, .dw vs :: rest => symbols (a + vs.length) rest

/-- The word a value stands for; none for an unknown name or a number that is no word. -/
def AsmValue.word? (syms : List (String × Nat)) : AsmValue → Option Word
  | .number z => narrow z
  | .label name off => (syms.lookup name).bind fun a => narrow (a + off)

/-- The words of a list of values; none when one of them has none. -/
def asmWords (syms : List (String × Nat)) : List AsmValue → Option (List Word)
  | [] => some []
  | v :: vs =>
    match v.word? syms, asmWords syms vs with
    | some w, some ws => some (w :: ws)
    | _, _ => none

/-- R94: the cells of one line; none where it does not assemble (a wrong number of operands, `#v` as a destination). -/
def AsmLine.cells? (syms : List (String × Nat)) : AsmLine → Option (List Word)
  | .label _ => some []
  | .dw vs => asmWords syms vs
  | .instr op args =>
    match asmWords syms (args.map AsmArg.value) with
    | none => none
    | some ws =>
      if args.length = op.operandCount then
        let mode := fun k => ((args[k]?).map AsmArg.mode).getD .position
        let i := (Header.mk op (mode 0) (mode 1) (mode 2)).instr ws
        if i.WellFormed then some (encode i) else none
      else none

/-- The cells of the lines one after another. -/
def asmCells (syms : List (String × Nat)) : List AsmLine → Option (List Word)
  | [] => some []
  | l :: ls =>
    match l.cells? syms, asmCells syms ls with
    | some ws, some rest => some (ws ++ rest)
    | _, _ => none

/-- R94 to R96: the image of a listing. -/
def assemble (lines : List AsmLine) : Option (List Word) := asmCells (symbols 0 lines) lines

end Sys2Proof.Machine
end

