-- ==== Sys2Proof/Machine/Transactions.lean ====
section
/-! DEFINITION. The host transactions that take no step (spec/46_run_cycle_host.md): `NEW`, `ADD_INPUTS`, the opening of `RUN`
and `PEEK`. That they are made only while the core is not running (R170) is checked in Machine/RunCycle.lean `transact`. -/

namespace Sys2Proof.Machine

/-- R178, R230 `NEW(image)`: the reset state with `image` at the addresses from 0 up; whatever state there was is discarded. -/
def State.new (image : List Word) : State := { State.reset with mem := Memory.writeCells [] 0 image }

/-- R171 `ADD_INPUTS(values)`: appends at the tail of `INQ`, first value nearest the head; nothing else changes. -/
def State.addInputs (s : State) (values : List Word) : State := { s with inq := s.inq ++ values }

/-- R172, the opening of `RUN()`: `OUTBUF` is emptied; a faulted instance stays as it is (R177), any other starts to run. -/
def State.beginRun (s : State) : State :=
  match s.status with
  | .faulted => { s with outbuf := [] }
  | .ready => { s with outbuf := [], status := .running }
  | .running => { s with outbuf := [], status := .running }
  | .pendingInput => { s with outbuf := [], status := .running }
  | .completed => { s with outbuf := [], status := .running }

/-- R180: what a `PEEK` asks for. -/
inductive Peek where
  | mem (a : Nat)
  | pc
  | rb
  | status
  | fault
  | inq
  | outbuf
deriving DecidableEq, Repr

/-- R180: what a `PEEK` returns. -/
inductive PeekValue where
  | word (w : Word)
  | address (a : BitVec 64)
  | status (st : Status)
  | fault (f : FaultRecord)
  | words (ws : List Word)
deriving DecidableEq, Repr

/-- R180 `PEEK`: reads state and changes none; `PEEK_MEM` takes only an address in range. -/
def State.peek (s : State) : Peek → Option PeekValue
  | .mem a => if a ≤ Config.addrMax then some (.word (s.mem.read a)) else none
  | .pc => some (.address s.pc)
  | .rb => some (.word s.rb)
  | .status => some (.status s.status)
  | .fault => some (.fault s.fault)
  | .inq => some (.words s.inq)
  | .outbuf => some (.words s.outbuf)

end Sys2Proof.Machine
end

