-- ==== Sys2Proof/Machine/RunCycle.lean ====
section
/-! DEFINITION. The run cycle and the host's transactions as a whole (spec/46_run_cycle_host.md R170 to R183). `RUN` is under fuel,
because a run cycle need not end (R176). -/

namespace Sys2Proof.Machine

/-- The loop of R172: steps until one ends the run cycle; none when the fuel is used up before that. -/
def runLoop : Nat → State → Option State
  | 0, s => if s.status = .running then none else some s
  | fuel + 1, s =>
    if s.status = .running then
      match step s with
      | .next t => runLoop fuel t
      | .fault _ => none
      | .refused _ => none
    else some s

/-- R172 `RUN()`: the state after it. -/
def runCycle (fuel : Nat) (s : State) : Option State := runLoop fuel s.beginRun

/-- R172, Table 46-A: what a `RUN` hands to the host. -/
inductive RunResult where
  | pendingInput (outputs : List Word)
  | completed (outputs : List Word)
  /-- R203: a faulting run cycle delivers no outputs -/
  | fault (f : FaultRecord)
deriving DecidableEq, Repr

/-- Table 46-A: the result of a `RUN`, read off the state it leaves; none for a status in which no `RUN` ends. -/
def State.runResult (s : State) : Option RunResult :=
  match s.status with
  | .pendingInput => some (.pendingInput s.outbuf)
  | .completed => some (.completed s.outbuf)
  | .faulted => some (.fault s.fault)
  | .ready => none
  | .running => none

/-- R170: the four transactions. -/
inductive Transaction where
  | new (image : List Word)
  | addInputs (values : List Word)
  | run
  | peek (what : Peek)
deriving DecidableEq, Repr

/-- Table 46-B, column "host gets back". -/
inductive Reply where
  | nothing
  | result (r : RunResult)
  | value (v : PeekValue)
deriving DecidableEq, Repr

/-- How a transaction comes out. -/
inductive Transacted where
  /-- it is made: the state after it and what the host gets back -/
  | made (s : State) (reply : Reply)
  /-- Table 46-B: the host may not make it (the core is running, or `PEEK_MEM` of no address) -/
  | notLegal
  /-- the `RUN` has not ended within the fuel; the host has no result (R176) -/
  | notEnded
deriving DecidableEq, Repr

/-- R170, Table 46-B: one transaction on one instance. -/
def transact (fuel : Nat) (t : Transaction) (s : State) : Transacted :=
  if s.status = .running then .notLegal
  else
    match t with
    | .new image => .made (.new image) .nothing
    | .addInputs values => .made (s.addInputs values) .nothing
    | .run =>
      match runCycle fuel s with
      | none => .notEnded
      | some u =>
        match u.runResult with
        | none => .notEnded
        | some r => .made u (.result r)
    | .peek what =>
      match s.peek what with
      | none => .notLegal
      | some v => .made s (.value v)

/-! ## Several instances (R182, R212) -/

/-- Several instances driven by one host; they share nothing. -/
abbrev Instances := List State

/-- R182: each transaction names one instance and touches that instance alone; none when it is not made or there is no such
instance. -/
def transactAt (fuel : Nat) (sys : Instances) (k : Nat) (t : Transaction) : Option (Instances × Reply) :=
  match sys[k]? with
  | none => none
  | some s =>
    match transact fuel t s with
    | .made u reply => some (sys.set k u, reply)
    | .notLegal => none
    | .notEnded => none

/-- The host's schedule (U15): transactions made one after another, each on the instance it names, with their replies. -/
def transactAll (fuel : Nat) : Instances → List (Nat × Transaction) → Option (Instances × List Reply)
  | sys, [] => some (sys, [])
  | sys, (k, t) :: rest =>
    match transactAt fuel sys k t with
    | none => none
    | some (sys', reply) =>
      match transactAll fuel sys' rest with
      | none => none
      | some (sys'', replies) => some (sys'', reply :: replies)

/-- The transactions of one instance made one after another, with their replies. -/
def transactSeq (fuel : Nat) : State → List Transaction → Option (State × List Reply)
  | s, [] => some (s, [])
  | s, t :: rest =>
    match transact fuel t s with
    | .notLegal => none
    | .notEnded => none
    | .made u reply =>
      match transactSeq fuel u rest with
      | none => none
      | some (u', replies) => some (u', reply :: replies)

/-- The transactions of a schedule that name instance `k`, in order. -/
def ownTransactions (k : Nat) (sched : List (Nat × Transaction)) : List Transaction :=
  (sched.filter fun e => e.1 == k).map Prod.snd

/-- The replies that a schedule's instance `k` gave, out of all of them in the schedule's order. -/
def ownReplies (k : Nat) (sched : List (Nat × Transaction)) (replies : List Reply) : List Reply :=
  ((sched.zip replies).filter fun e => e.1.1 == k).map Prod.snd

/-! ## The Blocking Runner, a host procedure outside the block (R183) -/

/-- R183: how the Blocking Runner ends. -/
inductive BlockingResult where
  | outputs (ws : List Word)
  /-- code 4 of Table 60-A, which the core never raises (R195) -/
  | insufficientInput
  | fault (f : FaultRecord)
deriving DecidableEq, Repr

/-- R183 `BlockingRun(image, inputs)`; none when the one `RUN` has not ended within the fuel. -/
def blockingRun (fuel : Nat) (image inputs : List Word) : Option BlockingResult :=
  match runCycle fuel ((State.new image).addInputs inputs) with
  | none => none
  | some u =>
    match u.runResult with
    | none => none
    | some (.completed outs) => some (.outputs outs)
    | some (.pendingInput _) => some .insufficientInput
    | some (.fault f) => some (.fault f)

end Sys2Proof.Machine
end

