-- ==== Sys2Proof/Safety.lean ====
section
/-! DEFINITION. The terms that claims use: what an operand reads or names, said from the spec without the model's resolver; the
machine invariant; the states a host can reach; what counts as a safe run. -/

namespace Sys2Proof.Machine

/-! ## Operands, as the spec's prose puts them -/

/-- R6: `z` is a word. -/
abbrev IsWord (z : Int) : Prop := Config.wMin ≤ z ∧ z ≤ Config.wMax

/-- R117, the two address formulas: the literal word, or `rb` plus it. -/
def FormsAddress (s : State) (a : Arg) (ea : Int) : Prop :=
  (a.mode = .position ∧ ea = a.word.toInt) ∨ (a.mode = .relative ∧ ea = s.rb.toInt + a.word.toInt)

/-- R117: the operand names the cell at `addr`, an address in range. -/
def Names (s : State) (a : Arg) (addr : Nat) : Prop := FormsAddress s a addr ∧ addr ≤ Config.addrMax

/-- R117: the operand forms the integer `ea`, which is no address. -/
def OutOfRange (s : State) (a : Arg) (ea : Int) : Prop := FormsAddress s a ea ∧ (ea < 0 ∨ (Config.addrMax : Int) < ea)

/-- R118: the operand reads as `v`. -/
def Reads (s : State) (a : Arg) (v : Word) : Prop :=
  (a.mode = .immediate ∧ v = a.word) ∨ ∃ addr, Names s a addr ∧ v = s.mem.read addr

/-! ## The invariant -/

/-- R191: the integers a fault can carry, `-2^64` to `2^64 - 2`. -/
abbrev InfoRange (z : Int) : Prop := -18446744073709551616 ≤ z ∧ z ≤ 18446744073709551614

/-- What the spec says of every state of an instance: the store is a function from addresses to words (R51), here in its
canonical form; `pc` is at most `ADDR_MAX + 1` (R20); `STATUS = Faulted` exactly when a cause is recorded, and no cause goes with
info 0 (R29); causes 3 and 4 are never recorded (R194, R195); `info` fits (R191). -/
structure State.Inv (s : State) : Prop where
  mem_wf : s.mem.wf
  pc_le : s.pc.toNat ≤ Config.addrMax + 1
  faulted_iff : s.status = .faulted ↔ s.fault.cause ≠ .none
  clear_info : s.fault.cause = .none → s.fault.info = 0
  not_index : s.fault.cause ≠ .indexOutOfRange
  not_supply : s.fault.cause ≠ .insufficientInput
  info_range : InfoRange s.fault.info

/-! ## Reachable states and safe runs -/

/-- The states of an instance that a host can bring about: by `NEW`, by `ADD_INPUTS` and the opening of `RUN` while the core is not
running (R170), and by the core's steps. -/
inductive Reachable : State → Prop where
  | new (image : List Word) (h : image.length ≤ Config.addrMax + 1) : Reachable (State.new image)
  | addInputs (s : State) (values : List Word) (h : Reachable s) (hs : s.status ≠ .running) : Reachable (s.addInputs values)
  | beginRun (s : State) (h : Reachable s) (hs : s.status ≠ .running) : Reachable s.beginRun
  | step (s t : State) (h : Reachable s) (hs : Machine.step s = .next t) : Reachable t

/-- R205: no fault is recorded, the premise of every claim about a completed execution. -/
abbrev NoFault (s : State) : Prop := s.fault.cause = .none

/-- R179: the end of a program's execution; a pause is not one. -/
abbrev Ended (s : State) : Prop := s.status = .completed ∨ s.status = .faulted

/-- A safe run of one `RUN` transaction: it ends within the fuel, and not with a fault. -/
def SafeRun (fuel : Nat) (s : State) : Prop := ∃ u, runCycle fuel s = some u ∧ NoFault u

/-- The state an outcome leads to, none for a stop. -/
def nextState : Out → Option State
  | .next s => some s
  | .fault _ => none
  | .refused _ => none

end Sys2Proof.Machine
end

