-- ==== Sys2Proof/Certificates/Slice0/Obligations.lean ====
section
/-! DEFINITION. The statements for the provers. Each docstring names the rule of spec/ it formalises, or the sections it rests on;
a clause that is the spec's own decision (D<n> of spec/92_eei_decisions.md) or the model's choice (log <n>) is named as such. -/

open Sys2Proof Sys2Proof.Machine

namespace Sys2Proof.Claims

/-- Every cell reads as before. -/
def SameStore (s t : State) : Prop := ∀ c, t.mem.read c = s.mem.read c

/-- `STATUS` and `FAULT` are as before, or the state is `s` with one fault taken (R201). -/
def QuietOrFaulted (s t : State) : Prop := (t.status = s.status ∧ t.fault = s.fault) ∨ t = s.takeFault t.fault

/-- `w` has the opcode field of `op` and is not negative (R80). -/
def HasOpcode (w : Word) (op : Opcode) : Prop := 0 ≤ w.toInt ∧ w.toInt % 100 = op.code

/-- The mode digit of operand `k + 1` (R80). -/
def digitOf (w : Word) (k : Nat) : Int := w.toInt / 10 ^ (k + 2) % 10

/-- Table 30-D, the rows of ADD, MUL, IN, OUT. -/
def tableFirst : List Int :=
  [1, 101, 201, 1001, 1101, 1201, 2001, 2101, 2201, 20001, 20101, 20201, 21001, 21101, 21201, 22001, 22101, 22201] ++
  [2, 102, 202, 1002, 1102, 1202, 2002, 2102, 2202, 20002, 20102, 20202, 21002, 21102, 21202, 22002, 22102, 22202] ++
  [3, 203] ++ [4, 104, 204]

/-- Table 30-D, the rows of JT, JF, LT, EQ, ARB, HLT. -/
def tableSecond : List Int :=
  [5, 105, 205, 1005, 1105, 1205, 2005, 2105, 2205] ++ [6, 106, 206, 1006, 1106, 1206, 2006, 2106, 2206] ++
  [7, 107, 207, 1007, 1107, 1207, 2007, 2107, 2207, 20007, 20107, 20207, 21007, 21107, 21207, 22007, 22107, 22207] ++
  [8, 108, 208, 1008, 1108, 1208, 2008, 2108, 2208, 20008, 20108, 20208, 21008, 21108, 21208, 22008, 22108, 22208] ++
  [9, 109, 209] ++ [99]

end Sys2Proof.Claims

open Sys2Proof.Claims

/-- A cell holds the word last written to it, or its reset value. R51. -/
def Obligations.StoreHoldsLastWriteOrImage : Prop :=
  ∀ (image : List Word) (ws : List (Nat × Word)) (a : Nat), image.length ≤ Config.addrMax + 1 →
    (ws.foldl (fun m e => m.write e.1 e.2) (State.new image).mem).read a =
      match ws.reverse.find? (fun e => e.1 == a) with
      | some e => e.2
      | none => image.getD a 0

/-- Two canonical stores that read alike at every address are the same list. Rests on spec/20_memory.md section 1; 10_state.md
section 9. The model's choice: log 1. -/
def Obligations.EqualStoresAreEqualLists : Prop :=
  ∀ m n : Memory, m.wf → n.wf → (∀ a, a ≤ Config.addrMax → m.read a = n.read a) → m = n

/-- Reset leaves every piece of state at the value of Table 10-C. Rests on spec/10_state.md section 10; 70_reset_and_hazards.md
section 1; 92_eei_decisions.md D14, D15, D17, D18. The spec's own decisions D14, D15, D17, D18. The model's choice: log 2. -/
def Obligations.ResetLeavesTable10C : Prop :=
  State.reset = State.new [] ∧
  ∀ image : List Word, image.length ≤ Config.addrMax + 1 →
    (∀ a, (State.new image).mem.read a = image.getD a 0) ∧
    (State.new image).pc = 0 ∧ (State.new image).rb = 0 ∧ (State.new image).inq = [] ∧ (State.new image).outbuf = [] ∧
    (State.new image).status = .ready ∧ Status.ready.code = 0 ∧
    (State.new image).fault.cause.code = 0 ∧ (State.new image).fault.info = 0

/-- Decoding an encoded well-formed instruction gives it back. Rests on spec/30_encoding.md sections 1 to 4. -/
def Obligations.DecodeOfEncode : Prop :=
  ∀ (i : Instr) (rest : List Word), i.WellFormed → decode (encode i ++ rest) = .ok (i, rest)

/-- A list of cells that decodes is the encoding of the instruction read from it. Rests on spec/30_encoding.md sections 1 to 4. -/
def Obligations.EncodeOfDecode : Prop :=
  ∀ (cells rest : List Word) (i : Instr), decode cells = .ok (i, rest) → i.WellFormed ∧ cells = encode i ++ rest

/-- The legal instruction words are the 99 words of Table 30-D and no others. Rests on spec/30_encoding.md section 3, Table
30-D. -/
def Obligations.LegalWordsAreTable30D : Prop :=
  (tableFirst ++ tableSecond).length = 99 ∧ (tableFirst ++ tableSecond).Nodup ∧
  ∀ w : Word, (∃ h, decodeWord w = .ok h) ↔ w.toInt ∈ tableFirst ++ tableSecond

/-- When a word raises UnknownOpcode, and what it carries. Rests on spec/30_encoding.md section 4; 92_eei_decisions.md D7, D9,
D23. The spec's own decisions D7, D9, D23. -/
def Obligations.UnknownOpcodeExactlyWhen : Prop :=
  ∀ (w : Word) (c : Int), decodeWord w = .error (.unknownOpcode c) ↔
    (w.toInt < 0 ∧ c = -((-w.toInt) % 100)) ∨
    (0 ≤ w.toInt ∧ c = w.toInt % 100 ∧ c ∉ ([1, 2, 3, 4, 5, 6, 7, 8, 9, 99] : List Int))

/-- When a word raises UnknownParameterMode, and what it carries. Rests on spec/30_encoding.md section 4; 92_eei_decisions.md
D9, D23. The spec's own decisions D9, D23. -/
def Obligations.UnknownParameterModeExactlyWhen : Prop :=
  ∀ (w : Word) (op : Opcode) (d : Nat), HasOpcode w op →
    (decodeWord w = .error (.unknownParameterMode d) ↔
      ∃ k, k < op.operandCount ∧ digitOf w k = d ∧ 2 < d ∧ ∀ j, j < k → digitOf w j ≤ 2)

/-- When a word raises ReservedEncoding. Rests on spec/30_encoding.md section 4; 92_eei_decisions.md D8, D9. The spec's own
decisions D8, D9. -/
def Obligations.ReservedEncodingExactlyWhen : Prop :=
  ∀ (w v : Word) (op : Opcode), HasOpcode w op →
    (decodeWord w = .error (.reservedEncoding v) ↔
      v = w ∧ (∀ j, j < op.operandCount → digitOf w j ≤ 2) ∧ 10 ^ (op.operandCount + 2) ≤ w.toInt)

/-- When a word raises ImmediateDestination. Rests on spec/30_encoding.md section 4; 92_eei_decisions.md D5, D9. The spec's own
decisions D5, D9. -/
def Obligations.ImmediateDestinationExactlyWhen : Prop :=
  ∀ (w v : Word) (op : Opcode), HasOpcode w op →
    (decodeWord w = .error (.immediateDestination v) ↔
      v = w ∧ (∀ j, j < op.operandCount → digitOf w j ≤ 2) ∧ w.toInt < 10 ^ (op.operandCount + 2) ∧
        op ∈ [Opcode.add, .mul, .lt, .eq, .inp] ∧ digitOf w (op.operandCount - 1) = 1)

/-- The worked decodes of Table 30-E. Rests on spec/30_encoding.md Table 30-B, Table 30-D, Table 30-E. -/
def Obligations.WorkedWordsDecode : Prop :=
  decode [1, 9, 10, 3] = .ok (.add ⟨.position, 9⟩ ⟨.position, 10⟩ ⟨.position, 3⟩, []) ∧
  decode [2, 3, 11, 0] = .ok (.mul ⟨.position, 3⟩ ⟨.position, 11⟩ ⟨.position, 0⟩, []) ∧
  decode [99] = .ok (.hlt, []) ∧
  decode [109, 1] = .ok (.arb ⟨.immediate, 1⟩, []) ∧
  decode [204, -1] = .ok (.out ⟨.relative, -1⟩, []) ∧
  decode [104, 7] = .ok (.out ⟨.immediate, 7⟩, []) ∧
  decode [4, 7] = .ok (.out ⟨.position, 7⟩, []) ∧
  decode [1001, 100, 1, 100] = .ok (.add ⟨.position, 100⟩ ⟨.immediate, 1⟩ ⟨.position, 100⟩, []) ∧
  decode [1008, 100, 16, 101] = .ok (.eq ⟨.position, 100⟩ ⟨.immediate, 16⟩ ⟨.position, 101⟩, []) ∧
  decode [1006, 101, 0] = .ok (.jf ⟨.position, 101⟩ ⟨.immediate, 0⟩, []) ∧
  decode [1102, 5, 6, 7] = .ok (.mul ⟨.immediate, 5⟩ ⟨.immediate, 6⟩ ⟨.position, 7⟩, []) ∧
  decode [3, 5] = .ok (.inp ⟨.position, 5⟩, []) ∧
  decode [205, 3, 4] = .ok (.jt ⟨.relative, 3⟩ ⟨.position, 4⟩, []) ∧
  decode [7, 1, 2, 3] = .ok (.lt ⟨.position, 1⟩ ⟨.position, 2⟩ ⟨.position, 3⟩, []) ∧
  decode [0, 0, 0, 0] = .error (.decodeFault (.unknownOpcode 0))

/-- The length of an instruction is the arity Table 30-C gives its opcode. R85. -/
def Obligations.LengthIsTheArityOfTheOpcode : Prop :=
  (∀ i : Instr, i.arity = i.opcode.arity ∧ i.arity = 1 + i.args.length ∧ (encode i).length = i.arity) ∧
  (Opcode.add.arity = 4 ∧ Opcode.mul.arity = 4 ∧ Opcode.inp.arity = 2 ∧ Opcode.out.arity = 2 ∧ Opcode.jt.arity = 3 ∧
    Opcode.jf.arity = 3 ∧ Opcode.lt.arity = 4 ∧ Opcode.eq.arity = 4 ∧ Opcode.arb.arity = 2 ∧ Opcode.hlt.arity = 1) ∧
  (∀ (w : Word) (h : Header) (rest : List Word), decodeWord w = .ok h → h.op.operandCount ≤ rest.length →
    ∃ i r, decode (w :: rest) = .ok (i, r) ∧ i.opcode = h.op ∧ r = rest.drop (h.op.arity - 1))

/-- A step runs the instruction decoded at the program counter. Rests on spec/40_step_fetch_decode_resolve.md section 1. -/
def Obligations.StepRunsDecodedInstruction : Prop :=
  ∀ (s : State) (i : Instr) (rest : List Word), s.status = .running →
    decode (s.mem.cells s.pc.toNat 4) = .ok (i, rest) → s.pc.toNat + i.arity ≤ Config.addrMax + 1 →
    step s = exec i s

/-- Where fetch, decode and operand fetch fault, and the cause and info that FAULT then holds. Rests on
spec/40_step_fetch_decode_resolve.md section 1; 60_exceptions.md sections 1 to 3, Table 60-A; 92_eei_decisions.md D5, D7,
D8, D9, D13, D15, D23. The spec's own decisions D5, D7, D8, D9, D13, D15, D23. That the step itself writes STATUS and FAULT,
where the spec has the run cycle do it at once after the step, is the model's inference, log 5. That states with pc above
2^63 are covered is log 8. -/
def Obligations.FetchAndDecodeFaults : Prop :=
  ∀ s : State, s.status = .running →
    (Config.addrMax < s.pc.toNat →
      step s = .next { s with status := .faulted, fault := ⟨.addressRange, s.pc.toNat⟩ }) ∧
    (s.pc.toNat ≤ Config.addrMax →
      (∀ c, decodeWord (s.mem.read s.pc.toNat) = .error (.unknownOpcode c) →
        step s = .next { s with status := .faulted, fault := ⟨.unknownOpcode, c⟩ }) ∧
      (∀ d, decodeWord (s.mem.read s.pc.toNat) = .error (.unknownParameterMode d) →
        step s = .next { s with status := .faulted, fault := ⟨.unknownParameterMode, d⟩ }) ∧
      (∀ w, decodeWord (s.mem.read s.pc.toNat) = .error (.reservedEncoding w) →
        w = s.mem.read s.pc.toNat ∧ step s = .next { s with status := .faulted, fault := ⟨.reservedEncoding, w.toInt⟩ }) ∧
      (∀ w, decodeWord (s.mem.read s.pc.toNat) = .error (.immediateDestination w) →
        w = s.mem.read s.pc.toNat ∧ step s = .next { s with status := .faulted, fault := ⟨.immediateDestination, w.toInt⟩ }) ∧
      (∀ h, decodeWord (s.mem.read s.pc.toNat) = .ok h → Config.addrMax < s.pc.toNat + h.op.operandCount →
        step s = .next { s with status := .faulted, fault := ⟨.addressRange, 9223372036854775808⟩ }))

/-- While no run cycle is in progress a step changes nothing. Rests on spec/46_run_cycle_host.md opening paragraph;
60_exceptions.md section 7. The model's choice: log 4. -/
def Obligations.IdleWhenNotRunning : Prop :=
  ∀ s : State, s.status ≠ .running → step s = .next s

/-- Every instruction and every step answers a next state (idle states by log 4, ill-formed terms by log 6). Rests on
spec/30_encoding.md section 4; 60_exceptions.md section 3. That a state that is not running has a step at all is the model's
choice, log 4; what a term with an immediate destination does, which no word decodes to, is the model's choice, log 6; the
spec gives the rest. That the step itself writes STATUS and FAULT, where the spec has the run cycle do it at once after the
step, is the model's inference, log 5. -/
def Obligations.NothingStopsTheModel : Prop :=
  (∀ s : State, ∃ t, step s = .next t) ∧ ∀ (i : Instr) (s : State), ∃ t, exec i s = .next t

/-- The word an instruction carries in a fault is the word it was fetched from. Rests on spec/60_exceptions.md section 1;
30_encoding.md section 3. -/
def Obligations.DecodedWordIsTheHead : Prop :=
  ∀ (s : State) (i : Instr), fetch s = .ok i → i.head = s.mem.read s.pc.toNat ∧ i.WellFormed

/-- The value of a source operand in each mode. R118. -/
def Obligations.SourceOperandValue : Prop :=
  ∀ (s : State) (a : Arg),
    (∀ v, readValue s a = .ok v ↔ Reads s a v) ∧
    (∀ addr, Names s a addr → (∀ e ∈ s.mem, e.1 ≠ addr) → readValue s a = .ok 0) ∧
    (∀ f, readValue s a = .error f → f.cause = .addressRange ∧ a.mode ≠ .immediate)

/-- A position or relative operand whose address is out of range faults with that integer. Rests on
spec/40_step_fetch_decode_resolve.md section 2; 92_eei_decisions.md D4. The spec's own decision D4. -/
def Obligations.AddressOutOfRangeFaults : Prop :=
  ∀ (s : State) (a : Arg) (w : Word) (f : FaultRecord), a.mode ≠ .immediate →
    (readValue s a = .error f ↔ ∃ ea, OutOfRange s a ea ∧ f = ⟨.addressRange, ea⟩) ∧
    (writeAddress s w a = .error f ↔ ∃ ea, OutOfRange s a ea ∧ f = ⟨.addressRange, ea⟩)

/-- A destination names the literal address or rb plus the offset, and reads no memory. R119. -/
def Obligations.DestinationIsNotDereferenced : Prop :=
  (∀ (s : State) (d : Arg) (w : Word) (addr : Nat), d.mode ≠ .immediate →
    (writeAddress s w d = .ok addr ↔ Names s d addr)) ∧
  (∀ (s : State) (d : Arg) (w : Word) (m : Memory), writeAddress { s with mem := m } w d = writeAddress s w d) ∧
  (∀ (s : State) (i : Instr) (d : Arg), fetch s = .ok i → i.dest? = some d → d.mode ≠ .immediate)

/-- ADD stores the exact sum and advances by 4. Rests on spec/41_arithmetic_compare.md sections 1 and 2. -/
def Obligations.AddStoresTheSum : Prop :=
  ∀ (s : State) (a b d : Arg) (x y : Word) (addr : Nat), Reads s a x → Reads s b y → Names s d addr →
    IsWord (x.toInt + y.toInt) →
    exec (.add a b d) s =
      .next { s with mem := s.mem.write addr (Word.ofInt (x.toInt + y.toInt)), pc := s.pc + 4 }

/-- MUL stores the exact signed product and advances by 4. Rests on spec/41_arithmetic_compare.md sections 1 and 2. -/
def Obligations.MulStoresTheProduct : Prop :=
  ∀ (s : State) (a b d : Arg) (x y : Word) (addr : Nat), Reads s a x → Reads s b y → Names s d addr →
    IsWord (x.toInt * y.toInt) →
    exec (.mul a b d) s =
      .next { s with mem := s.mem.write addr (Word.ofInt (x.toInt * y.toInt)), pc := s.pc + 4 }

/-- LT stores 1 or 0 by the signed comparison and never overflows. R133. -/
def Obligations.LessThanStoresTruth : Prop :=
  (∀ (s : State) (a b d : Arg) (x y : Word) (addr : Nat), Reads s a x → Reads s b y → Names s d addr →
    exec (.lt a b d) s =
      .next { s with mem := s.mem.write addr (if x.toInt < y.toInt then 1 else 0), pc := s.pc + 4 }) ∧
  (∀ (s t : State) (a b d : Arg), exec (.lt a b d) s = .next t →
    t.fault = s.fault ∨ t.fault.cause ≠ .arithmeticOverflow)

/-- EQ stores 1 or 0 by equality and never overflows. R134. -/
def Obligations.EqualsStoresTruth : Prop :=
  (∀ (s : State) (a b d : Arg) (x y : Word) (addr : Nat), Reads s a x → Reads s b y → Names s d addr →
    exec (.eq a b d) s =
      .next { s with mem := s.mem.write addr (if x.toInt = y.toInt then 1 else 0), pc := s.pc + 4 }) ∧
  (∀ (s t : State) (a b d : Arg), exec (.eq a b d) s = .next t →
    t.fault = s.fault ∨ t.fault.cause ≠ .arithmeticOverflow)

/-- ADD, MUL and ARB fault when the exact result is no word, and write nothing. Rests on spec/41_arithmetic_compare.md section
3; 44_relative_base.md; 60_exceptions.md sections 1 and 3; 92_eei_decisions.md D6, D10, D15. The spec's own decisions D6,
D10, D15. That the step itself writes STATUS and FAULT, where the spec has the run cycle do it at once after the step, is
the model's inference, log 5. -/
def Obligations.OverflowFaultsAndWritesNothing : Prop :=
  FaultCause.arithmeticOverflow.code = 7 ∧
  (∀ (s : State) (a b d : Arg) (x y : Word) (addr : Nat), Reads s a x → Reads s b y → Names s d addr →
    (¬ IsWord (x.toInt + y.toInt) →
      exec (.add a b d) s =
        .next { s with status := .faulted, fault := ⟨.arithmeticOverflow, (Instr.add a b d).head.toInt⟩ }) ∧
    (¬ IsWord (x.toInt * y.toInt) →
      exec (.mul a b d) s =
        .next { s with status := .faulted, fault := ⟨.arithmeticOverflow, (Instr.mul a b d).head.toInt⟩ })) ∧
  (∀ (s : State) (a : Arg) (x : Word), Reads s a x → ¬ IsWord (s.rb.toInt + x.toInt) →
    exec (.arb a) s =
      .next { s with status := .faulted, fault := ⟨.arithmeticOverflow, (Instr.arb a).head.toInt⟩ })

/-- IN with a value queued moves the head of the queue to its destination. Rests on spec/42_input_output.md. -/
def Obligations.InTakesTheHeadOfTheQueue : Prop :=
  ∀ (s : State) (d : Arg) (v : Word) (rest : List Word) (addr : Nat), s.inq = v :: rest → Names s d addr →
    exec (.inp d) s = .next { s with mem := s.mem.write addr v, inq := rest, pc := s.pc + 2 }

/-- IN pauses on an empty queue, and a bad destination leaves the queue as it was. Rests on spec/42_input_output.md;
92_eei_decisions.md D10, D27. The spec's own decisions D10, D27. That the step itself writes STATUS and FAULT, where the
spec has the run cycle do it at once after the step, is the model's inference, log 5. -/
def Obligations.InWaitsOrFaultsChangingNoInput : Prop :=
  ∀ (s : State) (d : Arg),
    (s.inq = [] → exec (.inp d) s = .next { s with status := .pendingInput }) ∧
    (∀ ea, s.inq ≠ [] → OutOfRange s d ea →
      exec (.inp d) s = .next { s with status := .faulted, fault := ⟨.addressRange, ea⟩ })

/-- OUT appends the value of its operand to OUTBUF, or faults with the address that is out of range. Rests on
spec/42_input_output.md; 40_step_fetch_decode_resolve.md section 2; 60_exceptions.md section 1; 92_eei_decisions.md D4, D15.
The spec's own decisions D4, D15. That the step itself writes STATUS and FAULT, where the spec has the run cycle do it at
once after the step, is the model's inference, log 5. -/
def Obligations.OutAppendsItsOperand : Prop :=
  ∀ (s : State) (a : Arg),
    (∀ v, Reads s a v → exec (.out a) s = .next { s with outbuf := s.outbuf ++ [v], pc := s.pc + 2 }) ∧
    (∀ ea, OutOfRange s a ea → exec (.out a) s = .next { s with status := .faulted, fault := ⟨.addressRange, ea⟩ }) ∧
    ((∃ v, Reads s a v) ∨ ∃ ea, OutOfRange s a ea)

/-- JT jumps to its target value on a non-zero condition and falls through on zero. R151. -/
def Obligations.JumpIfTrueJumpsOnNonZero : Prop :=
  ∀ (s : State) (c g : Arg) (x y : Word), Reads s c x → Reads s g y →
    (x ≠ 0 → 0 ≤ y.toInt → exec (.jt c g) s = .next { s with pc := y }) ∧
    (x = 0 → exec (.jt c g) s = .next { s with pc := s.pc + 3 })

/-- JF jumps to its target value on a zero condition and falls through otherwise. R152. -/
def Obligations.JumpIfFalseJumpsOnZero : Prop :=
  (∀ (s : State) (c g : Arg) (x y : Word), Reads s c x → Reads s g y →
    (x = 0 → 0 ≤ y.toInt → exec (.jf c g) s = .next { s with pc := y }) ∧
    (x ≠ 0 → exec (.jf c g) s = .next { s with pc := s.pc + 3 })) ∧
  (∀ (s : State) (c g : Arg) (addr : Nat) (y : Word), Names s c addr → (∀ e ∈ s.mem, e.1 ≠ addr) → Reads s g y →
    0 ≤ y.toInt → exec (.jf c g) s = .next { s with pc := y })

/-- A jump that is taken to a negative target value faults at the jump. Rests on spec/43_jumps.md; 92_eei_decisions.md D12. The
spec's own decision D12. That the step itself writes STATUS and FAULT, where the spec has the run cycle do it at once after
the step, is the model's inference, log 5. -/
def Obligations.TakenJumpToNegativeTargetFaults : Prop :=
  ∀ (s : State) (c g : Arg) (x y : Word), Reads s c x → Reads s g y → y.toInt < 0 →
    (x ≠ 0 → exec (.jt c g) s = .next { s with status := .faulted, fault := ⟨.addressRange, y.toInt⟩ }) ∧
    (x = 0 → exec (.jf c g) s = .next { s with status := .faulted, fault := ⟨.addressRange, y.toInt⟩ })

/-- ARB adds the value of its operand to rb. Rests on spec/44_relative_base.md. -/
def Obligations.ArbAddsToTheRelativeBase : Prop :=
  ∀ (s : State) (a : Arg) (x : Word), Reads s a x → IsWord (s.rb.toInt + x.toInt) →
    exec (.arb a) s = .next { s with rb := Word.ofInt (s.rb.toInt + x.toInt), pc := s.pc + 2 }

/-- HLT completes the run cycle and changes nothing else. Rests on spec/45_halt.md; 92_eei_decisions.md D11. The spec's own
decision D11. That the step itself writes STATUS, where the spec has the run cycle do it at once after the step, is the
model's inference, log 5. -/
def Obligations.HaltCompletesAndKeepsPc : Prop :=
  ∀ s : State, exec .hlt s = .next { s with status := .completed }

/-- The fault reported is that of the first operand out of range, before any overflow. Rests on spec/60_exceptions.md section 2;
92_eei_decisions.md D4, D9, D12. The spec's own decisions D4, D9, D12. That the step itself writes STATUS and FAULT, where
the spec has the run cycle do it at once after the step, is the model's inference, log 5. -/
def Obligations.FirstBadOperandIsReported : Prop :=
  (∀ (s : State) (a b d : Arg) (ea : Int), ∀ i ∈ [Instr.add a b d, .mul a b d, .lt a b d, .eq a b d],
    (OutOfRange s a ea → exec i s = .next (s.takeFault ⟨.addressRange, ea⟩)) ∧
    (∀ x, Reads s a x → OutOfRange s b ea → exec i s = .next (s.takeFault ⟨.addressRange, ea⟩)) ∧
    (∀ x y, Reads s a x → Reads s b y → OutOfRange s d ea → exec i s = .next (s.takeFault ⟨.addressRange, ea⟩))) ∧
  (∀ (s : State) (c g : Arg) (ea : Int), ∀ i ∈ [Instr.jt c g, .jf c g],
    (OutOfRange s c ea → exec i s = .next (s.takeFault ⟨.addressRange, ea⟩)) ∧
    (∀ x, Reads s c x → OutOfRange s g ea → exec i s = .next (s.takeFault ⟨.addressRange, ea⟩))) ∧
  (∀ (s : State) (a : Arg) (ea : Int), ∀ i ∈ [Instr.arb a, .out a], OutOfRange s a ea →
    exec i s = .next (s.takeFault ⟨.addressRange, ea⟩))

/-- What ADD, MUL, LT, EQ leave unchanged. Rests on spec/41_arithmetic_compare.md section 1; 10_state.md section 11. That the
step itself writes STATUS and FAULT, where the spec has the run cycle do it at once after the step, is the model's
inference, log 5. What a term with an immediate destination does is the model's choice, log 6. -/
def Obligations.FrameOfThreeOperandInstructions : Prop :=
  ∀ (s t : State) (a b d : Arg), ∀ i ∈ [Instr.add a b d, .mul a b d, .lt a b d, .eq a b d], exec i s = .next t →
    t.rb = s.rb ∧ t.inq = s.inq ∧ t.outbuf = s.outbuf ∧ QuietOrFaulted s t ∧
    (∀ addr, writeAddress s i.head d = .ok addr → ∀ c, c ≠ addr → t.mem.read c = s.mem.read c) ∧
    (∀ f, writeAddress s i.head d = .error f → SameStore s t)

/-- What IN leaves unchanged. Rests on spec/42_input_output.md; 10_state.md section 11. That the step itself writes STATUS and
FAULT, where the spec has the run cycle do it at once after the step, is the model's inference, log 5. What a term with an
immediate destination does is the model's choice, log 6. -/
def Obligations.FrameOfInput : Prop :=
  ∀ (s t : State) (d : Arg), exec (.inp d) s = .next t →
    t.rb = s.rb ∧ t.outbuf = s.outbuf ∧ (t.inq = s.inq ∨ ∃ v, s.inq = v :: t.inq) ∧
    (s.inq = [] → SameStore s t ∧ t.pc = s.pc ∧ t.fault = s.fault) ∧
    (s.inq ≠ [] → QuietOrFaulted s t) ∧
    (∀ addr, writeAddress s (Instr.inp d).head d = .ok addr → ∀ c, c ≠ addr → t.mem.read c = s.mem.read c) ∧
    (∀ f, writeAddress s (Instr.inp d).head d = .error f → SameStore s t ∧ t.inq = s.inq)

/-- What OUT, JT, JF, ARB and HLT leave unchanged. Rests on spec/42_input_output.md; 43_jumps.md; 44_relative_base.md;
45_halt.md; 10_state.md section 11. That the step itself writes STATUS and FAULT, where the spec has the run cycle do it at
once after the step, is the model's inference, log 5. -/
def Obligations.FrameOfNonStoringInstructions : Prop :=
  ∀ (s t : State) (a c g : Arg),
    (exec (.out a) s = .next t → SameStore s t ∧ t.inq = s.inq ∧ t.rb = s.rb ∧ QuietOrFaulted s t) ∧
    (∀ i ∈ [Instr.jt c g, .jf c g], exec i s = .next t →
      SameStore s t ∧ t.inq = s.inq ∧ t.rb = s.rb ∧ t.outbuf = s.outbuf ∧ QuietOrFaulted s t) ∧
    (exec (.arb a) s = .next t → SameStore s t ∧ t.inq = s.inq ∧ t.outbuf = s.outbuf ∧ QuietOrFaulted s t) ∧
    (exec .hlt s = .next t →
      SameStore s t ∧ t.inq = s.inq ∧ t.rb = s.rb ∧ t.outbuf = s.outbuf ∧ t.fault = s.fault ∧ t.pc = s.pc)

/-- Which instructions write memory, rb, INQ and OUTBUF (Table 10-D). Rests on spec/10_state.md section 11, Table 10-D;
92_eei_decisions.md D19. The spec's own decision D19. In a state that is not running the step is idle, the model's choice,
log 4. -/
def Obligations.OnlyListedInstructionsWrite : Prop :=
  ∀ s t : State, step s = .next t →
    (t.mem ≠ s.mem → ∃ i, fetch s = .ok i ∧ i.opcode ∈ [Opcode.add, .mul, .lt, .eq, .inp]) ∧
    (t.rb ≠ s.rb → ∃ i, fetch s = .ok i ∧ i.opcode = .arb) ∧
    (t.inq ≠ s.inq → ∃ i, fetch s = .ok i ∧ i.opcode = .inp ∧ ∃ v, s.inq = v :: t.inq) ∧
    (t.outbuf ≠ s.outbuf → ∃ i, fetch s = .ok i ∧ i.opcode = .out ∧ ∃ v, t.outbuf = s.outbuf ++ [v])

/-- When no jump is taken pc advances by the arity decoded, and the addition never wraps. R121. -/
def Obligations.SequentialAdvanceNeverWraps : Prop :=
  ∀ (s t : State) (i : Instr), s.status = .running → fetch s = .ok i → step s = .next t → t.status = .running →
    (∀ c g x, i = .jt c g → Reads s c x → x = 0) → (∀ c g x, i = .jf c g → Reads s c x → x ≠ 0) →
    t.pc.toNat = s.pc.toNat + i.arity ∧ t.pc.toNat ≤ Config.addrMax + 1

/-- The program counter after a step is one of the rows of Table 10-A. Rests on spec/10_state.md section 1, Table 10-A;
92_eei_decisions.md D11. The spec's own decision D11. That the step itself writes STATUS, where the spec has the run cycle
do it at once after the step, is the model's inference, log 5. -/
def Obligations.ProgramCounterUpdateTable10A : Prop :=
  ∀ s t : State, s.status = .running → step s = .next t →
    (t.status ≠ .running → t.pc = s.pc) ∧
    (t.status = .running → ∃ i, fetch s = .ok i ∧
      (∀ c g x, Reads s c x → (i = .jt c g ∧ x ≠ 0) ∨ (i = .jf c g ∧ x = 0) → Reads s g t.pc ∧ 0 ≤ t.pc.toInt) ∧
      ((∀ c g x, Reads s c x → ¬ ((i = .jt c g ∧ x ≠ 0) ∨ (i = .jf c g ∧ x = 0))) →
        t.pc = s.pc + BitVec.ofNat 64 i.arity))

/-- A faulting step changes STATUS and FAULT and nothing else. Rests on spec/60_exceptions.md section 3; 92_eei_decisions.md
D10. The spec's own decision D10. That the step itself writes STATUS and FAULT, where the spec has the run cycle do it at
once after the step, is the model's inference, log 5. -/
def Obligations.FaultEntryChangesOnlyStatusAndFault : Prop :=
  ∀ s t : State, s.status = .running → step s = .next t → t.status = .faulted →
    t = { s with status := .faulted, fault := t.fault } ∧ t.fault.cause ≠ .none

/-- Which fault each instruction can raise once decoded (Table 60-B). Rests on spec/60_exceptions.md section 2, Table 60-B. That
the step itself writes STATUS and FAULT, where the spec has the run cycle do it at once after the step, is the model's
inference, log 5. -/
def Obligations.FaultsByInstructionTable60B : Prop :=
  ∀ (s t : State) (i : Instr), i.WellFormed → s.status ≠ .faulted → exec i s = .next t → t.status = .faulted →
    i.opcode ≠ .hlt ∧
    (t.fault.cause = .addressRange ∨
      (t.fault.cause = .arithmeticOverflow ∧ i.opcode ∈ [Opcode.add, .mul, .arb]))

/-- A pause is not recorded in FAULT and comes only from IN with an empty queue. Rests on spec/60_exceptions.md section 4
(R206); 42_input_output.md (R140); 46_run_cycle_host.md section 1 (R173). That the step itself writes STATUS, where the spec
has the run cycle do it at once after the step, is the model's inference, log 5. -/
def Obligations.PauseIsNotAFault : Prop :=
  ∀ s t : State, s.status = .running → step s = .next t → t.status = .pendingInput →
    t.fault = s.fault ∧ t = { s with status := .pendingInput } ∧ s.inq = [] ∧ ∃ d, fetch s = .ok (.inp d)

/-- A faulted instance stays faulted, with its record, until NEW. Rests on spec/46_run_cycle_host.md section 2; 60_exceptions.md
section 4; 92_eei_decisions.md D16. The spec's own decision D16. That a faulted state has an idle step is the model's
choice, log 4: the spec says that no step is taken. -/
def Obligations.FaultedIsPermanentUntilNew : Prop :=
  ∀ s : State, s.status = .faulted →
    step s = .next s ∧
    (∀ fuel, transact fuel .run s = .made { s with outbuf := [] } (.result (.fault s.fault))) ∧
    (∀ fuel tr u r, (∀ image, tr ≠ .new image) → transact fuel tr s = .made u r →
      u.status = .faulted ∧ u.fault = s.fault) ∧
    (∀ fuel image, transact fuel (.new image) s = .made (State.new image) .nothing ∧
      (State.new image).status = .ready ∧ (State.new image).fault = ⟨.none, 0⟩)

/-- What a RUN that ends hands to the host and leaves (Table 46-A). Rests on spec/46_run_cycle_host.md section 1, Table 46-A;
60_exceptions.md section 3. -/
def Obligations.EndsOfARunCycle : Prop :=
  ∀ (fuel : Nat) (s u : State) (r : Reply), s.status ≠ .faulted → transact fuel .run s = .made u r →
    (u.status = .pendingInput ∧ r = .result (.pendingInput u.outbuf) ∧ u.inq = [] ∧ ∃ d, fetch u = .ok (.inp d)) ∨
    (u.status = .completed ∧ r = .result (.completed u.outbuf) ∧ fetch u = .ok .hlt) ∨
    (u.status = .faulted ∧ r = .result (.fault u.fault))

/-- RUN again after Completed, or after PendingInput with no input added, ends the same at once. Rests on
spec/46_run_cycle_host.md section 2; 92_eei_decisions.md D11, D16. The spec's own decisions D11, D16. -/
def Obligations.RunAgainWithoutInputChangesNothing : Prop :=
  ∀ (fuel more : Nat) (s u : State) (outs : List Word),
    (transact fuel .run s = .made u (.result (.completed outs)) →
      transact (more + 1) .run u = .made { u with outbuf := [] } (.result (.completed []))) ∧
    (transact fuel .run s = .made u (.result (.pendingInput outs)) →
      transact (more + 1) .run u = .made { u with outbuf := [] } (.result (.pendingInput [])))

/-- A RUN that ends within some fuel ends the same way with more. Rests on spec/46_run_cycle_host.md section 2. The model's
choice: log 7. -/
def Obligations.MoreFuelGivesTheSameRun : Prop :=
  ∀ (fuel more : Nat) (s u : State), runCycle fuel s = some u → fuel ≤ more → runCycle more s = some u

/-- Pausing and resuming is the same as having queued the inputs before the first RUN. Rests on spec/46_run_cycle_host.md
section 2. -/
def Obligations.ResumedRunEqualsInputsQueuedAtOnce : Prop :=
  ∀ (fuel more : Nat) (s u v : State) (values : List Word),
    runCycle fuel s = some u → u.status = .pendingInput → runCycle more (u.addInputs values) = some v →
    ∃ enough, runCycle enough (s.addInputs values) = some { v with outbuf := u.outbuf ++ v.outbuf }

/-- ADD_INPUTS appends to INQ and changes nothing else. Rests on spec/46_run_cycle_host.md section 1; 92_eei_decisions.md D18.
The spec's own decision D18. -/
def Obligations.AddInputsOnlyAppends : Prop :=
  ∀ (fuel : Nat) (s : State) (values : List Word), s.status ≠ .running →
    transact fuel (.addInputs values) s = .made { s with inq := s.inq ++ values } .nothing

/-- No transaction can be made while running, and PEEK changes nothing. Rests on spec/46_run_cycle_host.md sections 1 and 3;
92_eei_decisions.md D19. The spec's own decision D19. That a transaction which may not be made answers notLegal is the
model's choice, log 13. -/
def Obligations.NoTransactionWhileRunningAndPeekIsPure : Prop :=
  (∀ (fuel : Nat) (s : State) (tr : Transaction), s.status = .running → transact fuel tr s = .notLegal) ∧
  (∀ (fuel : Nat) (s : State), s.status ≠ .running →
    (∀ a, a ≤ Config.addrMax → transact fuel (.peek (.mem a)) s = .made s (.value (.word (s.mem.read a)))) ∧
    transact fuel (.peek .pc) s = .made s (.value (.address s.pc)) ∧
    transact fuel (.peek .rb) s = .made s (.value (.word s.rb)) ∧
    transact fuel (.peek .status) s = .made s (.value (.status s.status)) ∧
    transact fuel (.peek .fault) s = .made s (.value (.fault s.fault)) ∧
    transact fuel (.peek .inq) s = .made s (.value (.words s.inq)) ∧
    transact fuel (.peek .outbuf) s = .made s (.value (.words s.outbuf)))

/-- In any schedule each instance sees only its own transactions. Rests on spec/60_exceptions.md section 7; 46_run_cycle_host.md
section 4. That all RUNs of a schedule have one fuel, and that a schedule with a transaction that is not made has no
outcome, is the model's choice, log 12. -/
def Obligations.InstancesDoNotInteract : Prop :=
  ∀ (fuel : Nat) (sys sys' : Instances) (sched : List (Nat × Transaction)) (replies : List Reply),
    transactAll fuel sys sched = some (sys', replies) →
    sys'.length = sys.length ∧
    ∀ (k : Nat) (s : State), sys[k]? = some s →
      ∃ u, sys'[k]? = some u ∧
        transactSeq fuel s (ownTransactions k sched) = some (u, ownReplies k sched replies)

/-- The Blocking Runner's failure on missing input leaves an ordinary PendingInput. Rests on spec/46_run_cycle_host.md section
5; 92_eei_decisions.md D26. The spec's own decision D26. -/
def Obligations.BlockingRunnerNeverRecordsInsufficientInput : Prop :=
  ∀ (fuel : Nat) (image inputs : List Word) (u : State),
    runCycle fuel ((State.new image).addInputs inputs) = some u →
    (blockingRun fuel image inputs = some .insufficientInput ↔ u.status = .pendingInput) ∧
    (∀ outs, blockingRun fuel image inputs = some (.outputs outs) ↔ u.status = .completed ∧ outs = u.outbuf) ∧
    (u.status = .pendingInput ∨ u.status = .completed → u.fault = ⟨.none, 0⟩)

/-- The machine invariant holds after reset. Rests on spec/10_state.md section 10; 20_memory.md section 4. That an image longer
than ADDR_MAX + 1 cells loses the cells above is the model's choice, log 11, and that State.reset is NEW of the empty image,
log 2. -/
def Obligations.ResetMeetsTheInvariant : Prop :=
  State.reset.Inv ∧ ∀ image : List Word, (State.new image).Inv

/-- Every step keeps the machine invariant. Rests on spec/10_state.md sections 1, 5 and 8; 20_memory.md section 4;
60_exceptions.md section 1. In a state that is not running the step is idle, the model's choice, log 4. -/
def Obligations.StepKeepsTheInvariant : Prop :=
  ∀ s t : State, s.Inv → step s = .next t → t.Inv

/-- Every state a host can bring about meets the invariant, and its status says what is at pc. Rests on spec/10_state.md
sections 1, 5 and 8; 46_run_cycle_host.md section 2; 60_exceptions.md section 1. -/
def Obligations.ReachableStatesMeetTheInvariant : Prop :=
  ∀ s : State, Reachable s →
    s.Inv ∧ (s.status = .completed → fetch s = .ok .hlt) ∧ (s.status = .pendingInput → ∃ d, fetch s = .ok (.inp d))

/-- A line of the assembly notation assembles to the cells of its instruction. Rests on spec/30_encoding.md section 5;
92_eei_decisions.md D21. The spec's own decision D21. -/
def Obligations.AssembledLineIsTheEncoding : Prop :=
  ∀ i : Instr,
    assemble [.instr i.opcode (i.args.map fun a => ⟨a.mode, .number a.word.toInt⟩)] =
      if i.WellFormed then some (encode i) else none

/-- The codes of STATUS and of the fault causes. Rests on spec/10_state.md section 8, Table 10-B; 60_exceptions.md section 1,
Table 60-A; 92_eei_decisions.md D14, D15. The spec's own decisions D14, D15. -/
def Obligations.CodesOfTables10BAnd60A : Prop :=
  (Status.ready.code = 0 ∧ Status.running.code = 1 ∧ Status.pendingInput.code = 2 ∧ Status.completed.code = 3 ∧
    Status.faulted.code = 4) ∧
  (FaultCause.none.code = 0 ∧ FaultCause.unknownOpcode.code = 1 ∧ FaultCause.unknownParameterMode.code = 2 ∧
    FaultCause.indexOutOfRange.code = 3 ∧ FaultCause.insufficientInput.code = 4 ∧ FaultCause.addressRange.code = 5 ∧
    FaultCause.immediateDestination.code = 6 ∧ FaultCause.arithmeticOverflow.code = 7 ∧
    FaultCause.reservedEncoding.code = 8)

/-- NEW gives the reset state of its image, whatever the state was. Rests on spec/70_reset_and_hazards.md section 1;
46_run_cycle_host.md section 2; 10_state.md section 10; 92_eei_decisions.md D14, D20. The spec's own decisions D14, D20.
What becomes of an image longer than ADDR_MAX + 1 cells is the model's choice, log 11. -/
def Obligations.NewDiscardsTheWholeState : Prop :=
  ∀ (fuel : Nat) (s : State) (image : List Word), s.status ≠ .running →
    ∃ u, transact fuel (.new image) s = .made u .nothing ∧ u = State.new image ∧
      u.pc = 0 ∧ u.rb = 0 ∧ u.inq = [] ∧ u.outbuf = [] ∧ u.status = .ready ∧ u.fault = ⟨.none, 0⟩ ∧
      (image.length ≤ Config.addrMax + 1 → ∀ a, u.mem.read a = image.getD a 0)
end

