-- ==== Sys2Proof/Laws/Decode.lean ====
section
/-! SUPPORT. What a decode fault carries (spec/30_encoding.md R89, R91). -/

namespace Sys2Proof.Laws

/-- The two decode faults that carry a word carry the word that was decoded. -/
theorem decodeWord_error_word {w v : Word} {f : DecodeFault} (h : decodeWord w = .error f)
    (hf : f = .reservedEncoding v ∨ f = .immediateDestination v) : v = w := by
  unfold decodeWord at h
  split at h
  · cases h
    simp at hf
  · split at h
    · cases h
      simp at hf
    · unfold checkDigits at h
      repeat' (split at h)
      all_goals try cases h
      all_goals simp at hf
      all_goals exact hf.symm

end Sys2Proof.Laws
end

