-- ==== Sys2Proof/Laws/Operands.lean ====
section
/-! SUPPORT. What the operand resolver's functions can answer (spec/40_step_fetch_decode_resolve.md R117). -/

namespace Sys2Proof.Machine

variable (s : State) (a : Arg) (ea : Int)

/-- R58: an integer passes as an address exactly when it is in range, and then it is that address. -/
theorem checkAddress_ok (n : Nat) : checkAddress ea = .ok n ↔ ea = n ∧ n ≤ Config.addrMax := by
  unfold checkAddress
  split <;> simp only [Except.ok.injEq, reduceCtorEq, false_iff] <;> omega

/-- R196: the only fault of the range check, and when it is raised. -/
theorem checkAddress_error (f : FaultRecord) :
    checkAddress ea = .error f ↔ f = addressRange ea ∧ (ea < 0 ∨ (Config.addrMax : Int) < ea) := by
  unfold checkAddress
  split
  · simp only [reduceCtorEq, false_iff]; omega
  · simp only [Except.error.injEq, eq_comm (a := f)]
    constructor
    · exact fun h => ⟨h, by omega⟩
    · exact fun h => h.1

theorem addressSum_some : addressSum s.rb a = some ea ↔ FormsAddress s a ea := by
  unfold addressSum FormsAddress
  cases a.mode <;> simp [eq_comm]

theorem addressSum_none : addressSum s.rb a = none ↔ a.mode = .immediate := by
  unfold addressSum
  cases a.mode <;> simp

/-- R119: the resolver of destinations reads no memory. -/
theorem writeAddress_store (w : Word) (d : Arg) (b : Nat) (v : Word) :
    writeAddress (s.store b v) w d = writeAddress s w d := rfl

/-- The result range test, said with `IsWord` (R130). -/
theorem narrow_some (r : Int) (v : Word) : narrow r = some v ↔ IsWord r ∧ v = Word.ofInt r := by
  unfold narrow
  split <;> simp_all [IsWord, eq_comm]

theorem narrow_none (r : Int) : narrow r = none ↔ ¬ IsWord r := by
  unfold narrow
  split <;> simp_all [IsWord]

end Sys2Proof.Machine
end

