-- ==== Sys2Proof/Laws/State.lean ====
section
/-! SUPPORT. One lemma per field per state update, so that no later proof unfolds a record update. -/

namespace Sys2Proof.Machine

variable (s : State)

@[simp] theorem State.store_mem (a : Nat) (v : Word) : (s.store a v).mem = s.mem.write a v := rfl
@[simp] theorem State.store_pc (a : Nat) (v : Word) : (s.store a v).pc = s.pc := rfl
@[simp] theorem State.store_rb (a : Nat) (v : Word) : (s.store a v).rb = s.rb := rfl
@[simp] theorem State.store_inq (a : Nat) (v : Word) : (s.store a v).inq = s.inq := rfl
@[simp] theorem State.store_outbuf (a : Nat) (v : Word) : (s.store a v).outbuf = s.outbuf := rfl
@[simp] theorem State.store_status (a : Nat) (v : Word) : (s.store a v).status = s.status := rfl
@[simp] theorem State.store_fault (a : Nat) (v : Word) : (s.store a v).fault = s.fault := rfl

@[simp] theorem State.advance_mem (n : Nat) : (s.advance n).mem = s.mem := rfl
@[simp] theorem State.advance_pc (n : Nat) : (s.advance n).pc = s.pc + BitVec.ofNat 64 n := rfl
@[simp] theorem State.advance_rb (n : Nat) : (s.advance n).rb = s.rb := rfl
@[simp] theorem State.advance_inq (n : Nat) : (s.advance n).inq = s.inq := rfl
@[simp] theorem State.advance_outbuf (n : Nat) : (s.advance n).outbuf = s.outbuf := rfl
@[simp] theorem State.advance_status (n : Nat) : (s.advance n).status = s.status := rfl
@[simp] theorem State.advance_fault (n : Nat) : (s.advance n).fault = s.fault := rfl

@[simp] theorem State.jump_mem (t : BitVec 64) : (s.jump t).mem = s.mem := rfl
@[simp] theorem State.jump_pc (t : BitVec 64) : (s.jump t).pc = t := rfl
@[simp] theorem State.jump_rb (t : BitVec 64) : (s.jump t).rb = s.rb := rfl
@[simp] theorem State.jump_inq (t : BitVec 64) : (s.jump t).inq = s.inq := rfl
@[simp] theorem State.jump_outbuf (t : BitVec 64) : (s.jump t).outbuf = s.outbuf := rfl
@[simp] theorem State.jump_status (t : BitVec 64) : (s.jump t).status = s.status := rfl
@[simp] theorem State.jump_fault (t : BitVec 64) : (s.jump t).fault = s.fault := rfl

@[simp] theorem State.setRb_mem (v : Word) : (s.setRb v).mem = s.mem := rfl
@[simp] theorem State.setRb_pc (v : Word) : (s.setRb v).pc = s.pc := rfl
@[simp] theorem State.setRb_rb (v : Word) : (s.setRb v).rb = v := rfl
@[simp] theorem State.setRb_inq (v : Word) : (s.setRb v).inq = s.inq := rfl
@[simp] theorem State.setRb_outbuf (v : Word) : (s.setRb v).outbuf = s.outbuf := rfl
@[simp] theorem State.setRb_status (v : Word) : (s.setRb v).status = s.status := rfl
@[simp] theorem State.setRb_fault (v : Word) : (s.setRb v).fault = s.fault := rfl

@[simp] theorem State.emit_mem (v : Word) : (s.emit v).mem = s.mem := rfl
@[simp] theorem State.emit_pc (v : Word) : (s.emit v).pc = s.pc := rfl
@[simp] theorem State.emit_rb (v : Word) : (s.emit v).rb = s.rb := rfl
@[simp] theorem State.emit_inq (v : Word) : (s.emit v).inq = s.inq := rfl
@[simp] theorem State.emit_outbuf (v : Word) : (s.emit v).outbuf = s.outbuf ++ [v] := rfl
@[simp] theorem State.emit_status (v : Word) : (s.emit v).status = s.status := rfl
@[simp] theorem State.emit_fault (v : Word) : (s.emit v).fault = s.fault := rfl

@[simp] theorem State.setInq_mem (vs : List Word) : (s.setInq vs).mem = s.mem := rfl
@[simp] theorem State.setInq_pc (vs : List Word) : (s.setInq vs).pc = s.pc := rfl
@[simp] theorem State.setInq_rb (vs : List Word) : (s.setInq vs).rb = s.rb := rfl
@[simp] theorem State.setInq_inq (vs : List Word) : (s.setInq vs).inq = vs := rfl
@[simp] theorem State.setInq_outbuf (vs : List Word) : (s.setInq vs).outbuf = s.outbuf := rfl
@[simp] theorem State.setInq_status (vs : List Word) : (s.setInq vs).status = s.status := rfl
@[simp] theorem State.setInq_fault (vs : List Word) : (s.setInq vs).fault = s.fault := rfl

@[simp] theorem State.takeFault_mem (f : FaultRecord) : (s.takeFault f).mem = s.mem := rfl
@[simp] theorem State.takeFault_pc (f : FaultRecord) : (s.takeFault f).pc = s.pc := rfl
@[simp] theorem State.takeFault_rb (f : FaultRecord) : (s.takeFault f).rb = s.rb := rfl
@[simp] theorem State.takeFault_inq (f : FaultRecord) : (s.takeFault f).inq = s.inq := rfl
@[simp] theorem State.takeFault_outbuf (f : FaultRecord) : (s.takeFault f).outbuf = s.outbuf := rfl
@[simp] theorem State.takeFault_status (f : FaultRecord) : (s.takeFault f).status = .faulted := rfl
@[simp] theorem State.takeFault_fault (f : FaultRecord) : (s.takeFault f).fault = f := rfl

@[simp] theorem State.pause_mem : (s.pause).mem = s.mem := rfl
@[simp] theorem State.pause_pc : (s.pause).pc = s.pc := rfl
@[simp] theorem State.pause_rb : (s.pause).rb = s.rb := rfl
@[simp] theorem State.pause_inq : (s.pause).inq = s.inq := rfl
@[simp] theorem State.pause_outbuf : (s.pause).outbuf = s.outbuf := rfl
@[simp] theorem State.pause_status : (s.pause).status = .pendingInput := rfl
@[simp] theorem State.pause_fault : (s.pause).fault = s.fault := rfl

@[simp] theorem State.halt_mem : (s.halt).mem = s.mem := rfl
@[simp] theorem State.halt_pc : (s.halt).pc = s.pc := rfl
@[simp] theorem State.halt_rb : (s.halt).rb = s.rb := rfl
@[simp] theorem State.halt_inq : (s.halt).inq = s.inq := rfl
@[simp] theorem State.halt_outbuf : (s.halt).outbuf = s.outbuf := rfl
@[simp] theorem State.halt_status : (s.halt).status = .completed := rfl
@[simp] theorem State.halt_fault : (s.halt).fault = s.fault := rfl

@[simp] theorem State.addInputs_mem (vs : List Word) : (s.addInputs vs).mem = s.mem := rfl
@[simp] theorem State.addInputs_pc (vs : List Word) : (s.addInputs vs).pc = s.pc := rfl
@[simp] theorem State.addInputs_rb (vs : List Word) : (s.addInputs vs).rb = s.rb := rfl
@[simp] theorem State.addInputs_inq (vs : List Word) : (s.addInputs vs).inq = s.inq ++ vs := rfl
@[simp] theorem State.addInputs_outbuf (vs : List Word) : (s.addInputs vs).outbuf = s.outbuf := rfl
@[simp] theorem State.addInputs_status (vs : List Word) : (s.addInputs vs).status = s.status := rfl
@[simp] theorem State.addInputs_fault (vs : List Word) : (s.addInputs vs).fault = s.fault := rfl

@[simp] theorem State.beginRun_mem : s.beginRun.mem = s.mem := by unfold State.beginRun; split <;> rfl
@[simp] theorem State.beginRun_pc : s.beginRun.pc = s.pc := by unfold State.beginRun; split <;> rfl
@[simp] theorem State.beginRun_rb : s.beginRun.rb = s.rb := by unfold State.beginRun; split <;> rfl
@[simp] theorem State.beginRun_inq : s.beginRun.inq = s.inq := by unfold State.beginRun; split <;> rfl
@[simp] theorem State.beginRun_outbuf : s.beginRun.outbuf = [] := by unfold State.beginRun; split <;> rfl
@[simp] theorem State.beginRun_fault : s.beginRun.fault = s.fault := by unfold State.beginRun; split <;> rfl

/-- R172, R177: a faulted instance does not start to run, any other does. -/
theorem State.beginRun_status : s.beginRun.status = if s.status = .faulted then .faulted else .running := by
  unfold State.beginRun; split <;> simp_all

/-- Table 10-C for any image. -/
@[simp] theorem State.new_mem (image : List Word) : (State.new image).mem = Memory.writeCells [] 0 image := rfl
@[simp] theorem State.new_pc (image : List Word) : (State.new image).pc = 0 := rfl
@[simp] theorem State.new_rb (image : List Word) : (State.new image).rb = 0 := rfl
@[simp] theorem State.new_inq (image : List Word) : (State.new image).inq = [] := rfl
@[simp] theorem State.new_outbuf (image : List Word) : (State.new image).outbuf = [] := rfl
@[simp] theorem State.new_status (image : List Word) : (State.new image).status = .ready := rfl
@[simp] theorem State.new_fault (image : List Word) : (State.new image).fault = .clear := rfl

end Sys2Proof.Machine
end

