-- ==== Sys2Proof/Laws/Meanings.lean ====
section
/-! SUPPORT. Once per shared operation, everything it can do when it answers a next state; the meanings of the instructions are
these operations at particular arguments. -/

namespace Sys2Proof.Machine

variable {s t : State} {a b d : Arg}

theorem raise_next (f : FaultRecord) : raise s f = .next t ↔ t = s.takeFault f := by
  simp [raise, eq_comm]

/-- R130: ADD, MUL, LT, EQ store one result and advance, or take one fault. -/
theorem binaryOp_cases {i : Instr} {f : Int → Int → Int} (h : binaryOp i f a b d s = .next t) :
    (∃ x y addr r, readValue s a = .ok x ∧ readValue s b = .ok y ∧ writeAddress s i.head d = .ok addr ∧
      narrow (f x.toInt y.toInt) = some r ∧ t = (s.store addr r).advance i.arity) ∨
    (∃ e, t = s.takeFault e ∧
      (readValue s a = .error e ∨ readValue s b = .error e ∨ writeAddress s i.head d = .error e ∨
        (e = arithmeticOverflow i.head ∧
          ∃ x y, readValue s a = .ok x ∧ readValue s b = .ok y ∧ narrow (f x.toInt y.toInt) = none))) := by
  unfold binaryOp at h
  split at h
  · rename_i e ha; exact .inr ⟨e, (raise_next e).1 h, .inl ha⟩
  · rename_i x ha
    split at h
    · rename_i e hb; exact .inr ⟨e, (raise_next e).1 h, .inr (.inl hb)⟩
    · rename_i y hb
      split at h
      · rename_i e hd; exact .inr ⟨e, (raise_next e).1 h, .inr (.inr (.inl hd))⟩
      · rename_i addr hd
        split at h
        · rename_i hn; exact .inr ⟨_, (raise_next _).1 h, .inr (.inr (.inr ⟨rfl, x, y, ha, hb, hn⟩))⟩
        · rename_i r hn
          exact .inl ⟨x, y, addr, r, ha, hb, hd, hn, by simpa [eq_comm] using h⟩

/-- R150: JT and JF jump, fall through, or take one fault. -/
theorem jumpIf_cases {i : Instr} {taken : Word → Bool} (h : jumpIf i taken a b s = .next t) :
    (∃ x y addr, readValue s a = .ok x ∧ readValue s b = .ok y ∧ taken x = true ∧ checkAddress y.toInt = .ok addr ∧
      t = s.jump (BitVec.ofNat 64 addr)) ∨
    (∃ x y, readValue s a = .ok x ∧ readValue s b = .ok y ∧ taken x = false ∧ t = s.advance i.arity) ∨
    (∃ e, t = s.takeFault e ∧
      (readValue s a = .error e ∨ readValue s b = .error e ∨
        ∃ x y, readValue s a = .ok x ∧ readValue s b = .ok y ∧ taken x = true ∧ checkAddress y.toInt = .error e)) := by
  unfold jumpIf at h
  split at h
  · rename_i e ha; exact .inr (.inr ⟨e, (raise_next e).1 h, .inl ha⟩)
  · rename_i x ha
    split at h
    · rename_i e hb; exact .inr (.inr ⟨e, (raise_next e).1 h, .inr (.inl hb)⟩)
    · rename_i y hb
      split at h
      · rename_i ht
        split at h
        · rename_i e he; exact .inr (.inr ⟨e, (raise_next e).1 h, .inr (.inr ⟨x, y, ha, hb, ht, he⟩)⟩)
        · rename_i addr he; exact .inl ⟨x, y, addr, ha, hb, ht, he, by simpa [eq_comm] using h⟩
      · rename_i ht
        exact .inr (.inl ⟨x, y, ha, hb, by simpa using ht, by simpa [eq_comm] using h⟩)

/-- R140: IN pauses, takes a value, or takes one fault with the queue as it was. -/
theorem execIn_cases (h : execIn d s = .next t) :
    (s.inq = [] ∧ t = s.pause) ∨
    (∃ v rest addr, s.inq = v :: rest ∧ writeAddress s (Instr.inp d).head d = .ok addr ∧
      t = ((s.setInq rest).store addr v).advance 2) ∨
    (∃ v rest e, s.inq = v :: rest ∧ writeAddress s (Instr.inp d).head d = .error e ∧ t = s.takeFault e) := by
  unfold execIn at h
  split at h
  · rename_i hq; exact .inl ⟨hq, by simpa [eq_comm] using h⟩
  · rename_i v rest hq
    split at h
    · rename_i e he; exact .inr (.inr ⟨v, rest, e, hq, he, (raise_next e).1 h⟩)
    · rename_i addr ha
      refine .inr (.inl ⟨v, rest, addr, hq, ha, ?_⟩)
      simpa [eq_comm, Instr.arity, Instr.opcode, Opcode.arity, Opcode.operandCount] using h

/-- R141: OUT appends or takes one fault. -/
theorem execOut_cases (h : execOut a s = .next t) :
    (∃ v, readValue s a = .ok v ∧ t = (s.emit v).advance 2) ∨
    (∃ e, readValue s a = .error e ∧ t = s.takeFault e) := by
  unfold execOut at h
  split at h
  · rename_i e ha; exact .inr ⟨e, ha, (raise_next e).1 h⟩
  · rename_i v ha
    refine .inl ⟨v, ha, ?_⟩
    simpa [eq_comm, Instr.arity, Instr.opcode, Opcode.arity, Opcode.operandCount] using h

/-- R160: ARB adds to `rb` or takes one fault. -/
theorem execArb_cases (h : execArb a s = .next t) :
    (∃ v r, readValue s a = .ok v ∧ narrow (s.rb.toInt + v.toInt) = some r ∧ t = (s.setRb r).advance 2) ∨
    (∃ e, t = s.takeFault e ∧ (readValue s a = .error e ∨
      (e = arithmeticOverflow (Instr.arb a).head ∧
        ∃ v, readValue s a = .ok v ∧ narrow (s.rb.toInt + v.toInt) = none))) := by
  unfold execArb at h
  split at h
  · rename_i e ha; exact .inr ⟨e, (raise_next e).1 h, .inl ha⟩
  · rename_i v ha
    split at h
    · rename_i hn; exact .inr ⟨_, (raise_next _).1 h, .inr ⟨rfl, v, ha, hn⟩⟩
    · rename_i r hn
      refine .inl ⟨v, r, ha, hn, ?_⟩
      simpa [eq_comm, Instr.arity, Instr.opcode, Opcode.arity, Opcode.operandCount] using h

/-- R165: HLT only ends the run cycle. -/
theorem execHlt_next : execHlt s = .next t ↔ t = s.halt := by
  simp [execHlt, eq_comm]

end Sys2Proof.Machine
end

