-- ==== Sys2Proof/Laws/Memory.lean ====
section
/-! SUPPORT. The laws of the memory store (spec/20_memory.md R53, R54, R57): what a read gives after a write, and that every
memory operation keeps the canonical form. -/

namespace Sys2Proof.Machine.Memory

variable (m : Memory) (a b : Nat) (v : Word)

@[simp] theorem read_nil : Memory.read [] a = 0 := rfl

theorem read_cons (e : Nat × Word) : Memory.read (e :: m) a = if e.1 = a then e.2 else Memory.read m a := rfl

theorem read_erase : (m.erase a).read b = if b = a then 0 else m.read b := by
  unfold Memory.erase
  induction m with
  | nil => simp
  | cons e m ih =>
    by_cases he : e.1 = a
    · simp only [List.filter_cons, he, bne_self_eq_false, Bool.false_eq_true, ↓reduceIte, ih, read_cons]
      split <;> simp_all [eq_comm]
    · simp only [List.filter_cons, bne_iff_ne, ne_eq, he, not_false_eq_true, ↓reduceIte, read_cons, ih]
      split <;> simp_all

theorem read_insert (h : ∀ e ∈ m, e.1 ≠ a) : (m.insert a v).read b = if b = a then v else m.read b := by
  induction m with
  | nil => simp [Memory.insert, read_cons, eq_comm]
  | cons e m ih =>
    obtain ⟨c, u⟩ := e
    have hc : c ≠ a := h (c, u) (by simp)
    have ih := ih fun e he => h e (by simp [he])
    unfold Memory.insert
    split
    · simp [read_cons, eq_comm]
    · simp only [read_cons, ih]
      split <;> simp_all

theorem not_mem_erase : ∀ e ∈ m.erase a, e.1 ≠ a := by
  intro e he
  simpa [Memory.erase] using (List.mem_filter.1 he).2

/-- R54 with R53: what every cell holds after a write, in every list, canonical or not. -/
theorem read_write : (m.write a v).read b = if b = a then v else m.read b := by
  unfold Memory.write
  split
  · simp_all [read_erase]
  · rw [read_insert _ _ _ _ (m.not_mem_erase a), read_erase]
    split <;> simp_all

@[simp] theorem read_write_same : (m.write a v).read a = v := by simp [read_write]

theorem read_write_other (h : b ≠ a) : (m.write a v).read b = m.read b := by simp [read_write, h]

/-! ## The canonical form -/

theorem wf_nil : Memory.wf [] := by simp [Memory.wf]

theorem wf_erase (h : m.wf) : (m.erase a).wf :=
  ⟨h.1.filter _, fun e he => h.2 e (List.mem_filter.1 he).1⟩

theorem mem_insert (e : Nat × Word) : e ∈ m.insert a v ↔ e = (a, v) ∨ e ∈ m := by
  induction m with
  | nil => simp [Memory.insert]
  | cons c m ih =>
    obtain ⟨c, u⟩ := c
    unfold Memory.insert
    split
    · simp
    · simp [ih]; tauto

theorem wf_insert (h : m.wf) (hm : ∀ e ∈ m, e.1 ≠ a) (hv : v ≠ 0) (ha : a ≤ Config.addrMax) : (m.insert a v).wf := by
  refine ⟨?_, fun e he => ?_⟩
  · induction m with
    | nil => simp [Memory.insert]
    | cons c m ih =>
      obtain ⟨c, u⟩ := c
      have hc := List.pairwise_cons.1 h.1
      have hca : c ≠ a := hm (c, u) (by simp)
      unfold Memory.insert
      split
      · rename_i hlt
        refine List.pairwise_cons.2 ⟨fun e he => ?_, h.1⟩
        rcases List.mem_cons.1 he with rfl | he
        · exact hlt
        · exact Nat.lt_trans hlt (hc.1 e he)
      · rename_i hlt
        refine List.pairwise_cons.2 ⟨fun e he => ?_, ih ⟨hc.2, fun e he => h.2 e (by simp [he])⟩ fun e he => hm e (by simp [he])⟩
        rcases (mem_insert m a v e).1 he with rfl | he
        · simp only at *; omega
        · exact hc.1 e he
  · rcases (mem_insert m a v e).1 he with rfl | he
    · exact ⟨hv, ha⟩
    · exact h.2 e he

/-- A write at an address keeps the canonical form. -/
theorem wf_write (h : m.wf) (ha : a ≤ Config.addrMax) : (m.write a v).wf := by
  unfold Memory.write
  split
  · exact wf_erase m a h
  · rename_i hv
    exact wf_insert _ a v (wf_erase m a h) (not_mem_erase m a) hv ha

/-- Loading cells keeps the canonical form, wherever the cells end (R230). -/
theorem wf_writeCells (h : m.wf) (vs : List Word) : (m.writeCells a vs).wf := by
  induction vs generalizing m a with
  | nil => exact h
  | cons v vs ih =>
    unfold Memory.writeCells
    refine ih _ _ ?_
    split
    · rename_i ha
      exact wf_write m a v h ha
    · exact h

end Sys2Proof.Machine.Memory
end

