-- ==== Sys2Proof/Laws/PerInstr.lean ====
section
/-! SUPPORT. Per instruction: the decimal digits of its instruction word (spec/30_encoding.md R80, R94), one lemma per constructor. -/

namespace Sys2Proof.Laws

theorem mode_digit_le (m : Mode) : m.digit ≤ 2 := by cases m <;> decide

theorem modeDigit_le (args : List Arg) (k : Nat) : modeDigit args k ≤ 2 := by
  unfold modeDigit
  split
  · exact mode_digit_le _
  · decide

theorem code_lt (op : Opcode) : op.code < 100 := by cases op <;> decide

/-- The digits of an instruction word are read back by the field extractions of R80. -/
theorem headNat_digits (i : Instr) :
    i.headNat % 100 = i.opcode.code ∧ dig i.headNat 2 = modeDigit i.args 0 ∧ dig i.headNat 3 = modeDigit i.args 1 ∧
      dig i.headNat 4 = modeDigit i.args 2 ∧ i.headNat / 100000 = 0 := by
  have h0 := modeDigit_le i.args 0
  have h1 := modeDigit_le i.args 1
  have h2 := modeDigit_le i.args 2
  have hc := code_lt i.opcode
  unfold Instr.headNat dig
  omega

namespace HeadDigits

/-- The opcode field, the three mode digits and `hi` of the instruction's word are those of its operation and operands. -/
def Statement (i : Instr) : Prop :=
  i.headNat % 100 = i.opcode.code ∧ dig i.headNat 2 = modeDigit i.args 0 ∧ dig i.headNat 3 = modeDigit i.args 1 ∧
    dig i.headNat 4 = modeDigit i.args 2 ∧ i.headNat / 100000 = 0

theorem add (a b d : Arg) : Statement (.add a b d) := headNat_digits _
theorem mul (a b d : Arg) : Statement (.mul a b d) := headNat_digits _
theorem inp (d : Arg) : Statement (.inp d) := headNat_digits _
theorem out (a : Arg) : Statement (.out a) := headNat_digits _
theorem jt (c t : Arg) : Statement (.jt c t) := headNat_digits _
theorem jf (c t : Arg) : Statement (.jf c t) := headNat_digits _
theorem lt (a b d : Arg) : Statement (.lt a b d) := headNat_digits _
theorem eq (a b d : Arg) : Statement (.eq a b d) := headNat_digits _
theorem arb (a : Arg) : Statement (.arb a) := headNat_digits _
theorem hlt : Statement .hlt := headNat_digits _

end HeadDigits

end Sys2Proof.Laws
end

