-- ==== Sys2Proof/Laws/Step.lean ====
section
/-! SUPPORT. What one step, and one turn of the run cycle's loop, can be (R110, R172). -/

namespace Sys2Proof.Machine

variable {s t : State}

/-- While a run cycle is in progress a step is a fault taken from fetch, decode or operand fetch, or the decoded
instruction's meaning; otherwise it is idle. -/
theorem step_cases (h : step s = .next t) :
    (s.status = .running ∧ ∃ f, fetch s = .error f ∧ t = s.takeFault f) ∨
    (s.status = .running ∧ ∃ i, fetch s = .ok i ∧ exec i s = .next t) ∨
    (s.status ≠ .running ∧ t = s) := by
  unfold step at h
  split at h
  · rename_i hs
    split at h
    · rename_i f hf; exact .inl ⟨hs, f, hf, (raise_next f).1 h⟩
    · rename_i i hi; exact .inr (.inl ⟨hs, i, hi, h⟩)
  all_goals
    rename_i hs
    exact .inr (.inr ⟨by simp [hs], by simpa [eq_comm] using h⟩)

/-- The loop stops at once on a state that is not running. -/
theorem runLoop_stopped (h : s.status ≠ .running) (fuel : Nat) : runLoop fuel s = some s := by
  cases fuel <;> simp [runLoop, h]

/-- The loop takes one step from a running state. -/
theorem runLoop_step (hs : s.status = .running) (h : step s = .next t) (fuel : Nat) :
    runLoop (fuel + 1) s = runLoop fuel t := by
  simp [runLoop, hs, h]

/-- A loop that ends, ends on a state that is not running. -/
theorem runLoop_status {fuel : Nat} (h : runLoop fuel s = some t) : t.status ≠ .running := by
  induction fuel generalizing s with
  | zero =>
    unfold runLoop at h
    split at h
    · simp at h
    · rename_i hs
      simp only [Option.some.injEq] at h
      exact h ▸ hs
  | succ fuel ih =>
    unfold runLoop at h
    split at h
    · split at h
      · exact ih h
      · simp at h
      · simp at h
    · rename_i hs
      simp only [Option.some.injEq] at h
      exact h ▸ hs

end Sys2Proof.Machine
end

