-- ==== Sys2Proof/Tests/Slice0.lean ====
section
/-! SUPPORT. Tests: expected results are those of spec/95_test_vectors.md and spec/96_test_vectors_2.md (the vector is named), or
words written out from Table 30-B and Table 30-D. Then one witness for every obligation that has hypotheses. -/

namespace Sys2Proof.Tests

open Sys2Proof.Machine Sys2Proof.Claims

/-! ## Helpers -/

def pos (w : Word) : Arg := ⟨.position, w⟩
def imm (w : Word) : Arg := ⟨.immediate, w⟩
def rel (w : Word) : Arg := ⟨.relative, w⟩

/-- 2^63 - 1 -/
def wmax : Word := 9223372036854775807

/-- -2^63 -/
def wmin : Word := -9223372036854775808

/-- `NEW(image)`, `ADD_INPUTS(inputs)`, `RUN()` begun, with a value in `rb`. -/
def running (image : List Word) (inputs : List Word := []) (rb : Word := 0) : State :=
  { (State.new image).addInputs inputs with rb := rb, status := .running }

/-- A running state whose store holds only `m`, at `pc`. -/
def placed (m : Memory) (pc : BitVec 64) : State := { running [] with mem := m, pc := pc }

/-- The state after one step. -/
def after (s : State) : State := (nextState (step s)).getD s

/-- The record a decode fault leaves (R201); `clear` for a legal word. -/
def recordOf (w : Word) : FaultRecord :=
  match decodeWord w with
  | .error f => decodeRecord f
  | .ok _ => .clear

theorem of_nextState {o : Out} {t : State} (h : nextState o = some t) : o = .next t := by
  cases o with
  | next s => exact congrArg _ (Option.some.inj h)
  | fault f => cases f
  | refused r => cases h

theorem reads_imm (s : State) (w : Word) : Reads s (imm w) w := .inl ⟨rfl, rfl⟩

theorem names_pos (s : State) (w : Word) (n : Nat) (h : w.toInt = n ∧ n ≤ Config.addrMax) : Names s (pos w) n :=
  ⟨.inl ⟨rfl, h.1.symm⟩, h.2⟩

theorem names_rel (s : State) (w : Word) (n : Nat) (h : s.rb.toInt + w.toInt = n ∧ n ≤ Config.addrMax) :
    Names s (rel w) n :=
  ⟨.inr ⟨rfl, h.1.symm⟩, h.2⟩

theorem reads_pos (s : State) (w v : Word) (n : Nat) (h : w.toInt = n ∧ n ≤ Config.addrMax) (hv : v = s.mem.read n) :
    Reads s (pos w) v :=
  .inr ⟨n, names_pos s w n h, hv⟩

theorem reads_rel (s : State) (w v : Word) (n : Nat) (h : s.rb.toInt + w.toInt = n ∧ n ≤ Config.addrMax)
    (hv : v = s.mem.read n) : Reads s (rel w) v :=
  .inr ⟨n, names_rel s w n h, hv⟩

theorem out_pos (s : State) (w : Word) (ea : Int) (h : w.toInt = ea ∧ ea < 0) : OutOfRange s (pos w) ea :=
  ⟨.inl ⟨rfl, h.1.symm⟩, .inl h.2⟩

theorem out_rel (s : State) (w : Word) (ea : Int) (h : s.rb.toInt + w.toInt = ea ∧ (ea < 0 ∨ (Config.addrMax : Int) < ea)) :
    OutOfRange s (rel w) ea :=
  ⟨.inr ⟨rfl, h.1.symm⟩, h.2⟩

/-! ## Well-formedness: the check refuses an immediate destination (R83), and nothing else -/

theorem test_add_immediate_destination_refused : ¬ (Instr.add (pos 1) (pos 2) (imm 3)).WellFormed := by decide
theorem test_mul_immediate_destination_refused : ¬ (Instr.mul (pos 1) (pos 2) (imm 3)).WellFormed := by decide
theorem test_in_immediate_destination_refused : ¬ (Instr.inp (imm 3)).WellFormed := by decide
theorem test_lt_immediate_destination_refused : ¬ (Instr.lt (imm 1) (rel 2) (imm 3)).WellFormed := by decide
theorem test_eq_immediate_destination_refused : ¬ (Instr.eq (imm 1) (rel 2) (imm 3)).WellFormed := by decide
theorem test_well_formed_accepted :
    (Instr.add (imm 1) (imm 2) (rel (-3))).WellFormed ∧ (Instr.jt (imm 1) (imm wmin)).WellFormed ∧ Instr.hlt.WellFormed := by
  decide

/-! ## Decoding: every constructor's word, written from Table 30-B and Table 30-D -/

theorem test_decode_add : decode [21201, 5, -6, 7, 99] = .ok (.add (rel 5) (imm (-6)) (rel 7), [99]) := rfl
theorem test_decode_mul : decode [1202, -5, 6, 7] = .ok (.mul (rel (-5)) (imm 6) (pos 7), []) := rfl
theorem test_decode_in : decode [203, -1, 5] = .ok (.inp (rel (-1)), [5]) := rfl
theorem test_decode_out : decode [204, wmin] = .ok (.out (rel wmin), []) := rfl
theorem test_decode_jt : decode [2105, 8, 9] = .ok (.jt (imm 8) (rel 9), []) := rfl
theorem test_decode_jf : decode [1206, 8, 9] = .ok (.jf (rel 8) (imm 9), []) := rfl
theorem test_decode_lt : decode [22107, 1, 2, 3] = .ok (.lt (imm 1) (rel 2) (rel 3), []) := rfl
theorem test_decode_eq : decode [1008, 100, 16, 101] = .ok (.eq (pos 100) (imm 16) (pos 101), []) := rfl
theorem test_decode_arb : decode [109, wmax] = .ok (.arb (imm wmax), []) := rfl
theorem test_decode_hlt : decode [99, 1, 2] = .ok (.hlt, [1, 2]) := rfl

/-- R94's own example. -/
theorem test_encode_example : encode (.add (pos 100) (imm 1) (pos 100)) = [1001, 100, 1, 100] := by decide

theorem test_encode_each_format :
    encode (.mul (rel 1) (imm 2) (rel (-3))) = [21202, 1, 2, -3] ∧ encode (.inp (rel 4)) = [203, 4] ∧
    encode (.out (imm 5)) = [104, 5] ∧ encode (.jt (imm 6) (pos 7)) = [105, 6, 7] ∧
    encode (.jf (pos 6) (rel 7)) = [2006, 6, 7] ∧ encode (.arb (pos 8)) = [9, 8] ∧ encode .hlt = [99] := by decide

/-- Vectors E2, E4, E5, E6. -/
theorem test_unknown_opcode :
    recordOf 10 = ⟨.unknownOpcode, 10⟩ ∧ recordOf 98 = ⟨.unknownOpcode, 98⟩ ∧ recordOf 398 = ⟨.unknownOpcode, 98⟩ ∧
    recordOf 100 = ⟨.unknownOpcode, 0⟩ := by decide

/-- Vectors E33, E34, E35, E38. -/
theorem test_negative_word :
    recordOf (-1) = ⟨.unknownOpcode, -1⟩ ∧ recordOf (-99) = ⟨.unknownOpcode, -99⟩ ∧ recordOf (-100) = ⟨.unknownOpcode, 0⟩ ∧
    recordOf wmin = ⟨.unknownOpcode, -8⟩ := by decide

/-- Vectors E9, E11, E12, E14. -/
theorem test_unknown_mode :
    recordOf 3304 = ⟨.unknownParameterMode, 3⟩ ∧ recordOf 13101 = ⟨.unknownParameterMode, 3⟩ ∧
    recordOf 4501 = ⟨.unknownParameterMode, 5⟩ ∧ recordOf wmax = ⟨.unknownParameterMode, 8⟩ := by decide

/-- Vectors E15, E19, E22, E25, E26. -/
theorem test_reserved :
    recordOf 9004 = ⟨.reservedEncoding, 9004⟩ ∧ recordOf 2103 = ⟨.reservedEncoding, 2103⟩ ∧
    recordOf 199 = ⟨.reservedEncoding, 199⟩ ∧ recordOf 100001 = ⟨.reservedEncoding, 100001⟩ ∧
    recordOf 1000000002 = ⟨.reservedEncoding, 1000000002⟩ := by decide

/-- Vectors E27, E28, E30, E31, E32. -/
theorem test_immediate_destination :
    recordOf 103 = ⟨.immediateDestination, 103⟩ ∧ recordOf 10001 = ⟨.immediateDestination, 10001⟩ ∧
    recordOf 12202 = ⟨.immediateDestination, 12202⟩ ∧ recordOf 11107 = ⟨.immediateDestination, 11107⟩ ∧
    recordOf 10008 = ⟨.immediateDestination, 10008⟩ := by decide

/-- A list that ends inside an instruction is refused by name. -/
theorem test_truncated : decode [1, 2, 3] = .error (.truncated 1) := rfl

/-- The host's numbering: cell `k` is bits `64 k` to `64 k + 63`. -/
theorem test_table_word :
    decodeTableWord 64 99 = some .hlt ∧ decodeTableWord 8 3 = some (.inp (pos 0)) ∧
    decodeTableWord 256 (1001 + 100 * 2 ^ 64 + 2 ^ 128 + 100 * 2 ^ 192) = some (.add (pos 100) (imm 1) (pos 100)) ∧
    decodeTableWord 64 98 = none := by decide

/-- The word is placed where the very next step fetches it. -/
theorem test_with_fetch_word :
    fetch (State.reset.withFetchWord 128 (104 + 7 * 2 ^ 64)) = .ok (.out (imm 7)) ∧
    (after (State.reset.withFetchWord 128 (104 + 7 * 2 ^ 64))).outbuf = [7] := ⟨rfl, by decide⟩

/-! ## One step of each instruction -/

/-- Vector A4: the destination is the instruction's own operand cell. -/
theorem test_add : (after (running [1001, 1, 5, 1, 99])).mem.read 1 = 6 ∧ (after (running [1001, 1, 5, 1, 99])).pc = 4 := by
  decide

/-- Vector A8: WMAX + 1. -/
theorem test_add_overflow :
    (after (running [1101, wmax, 1, 5, 99, 0])).fault = ⟨.arithmeticOverflow, 1101⟩ ∧
    (after (running [1101, wmax, 1, 5, 99, 0])).pc = 0 := by decide

/-- Vector A19: `2^32 * -2^31 = WMIN` fits. -/
theorem test_mul : (after (running [1102, 4294967296, -2147483648, 5, 99, 0])).mem.read 5 = wmin := by decide

/-- Vector A17: the smallest square that overflows. -/
theorem test_mul_overflow :
    (after (running [1102, 3037000500, 3037000500, 5, 99, 0])).fault = ⟨.arithmeticOverflow, 1102⟩ := by decide

/-- Vector I1: the value lands on the IN word itself. -/
theorem test_in : (after (running [3, 0, 99] [42])).mem.read 0 = 42 ∧ (after (running [3, 0, 99] [42])).inq = [] := by decide

/-- Vector I7: the value is not popped. -/
theorem test_in_bad_destination :
    (after (running [3, -1, 99] [5])).fault = ⟨.addressRange, -1⟩ ∧ (after (running [3, -1, 99] [5])).inq = [5] := by decide

/-- Vector B9's second step: `rb + 1 = 2^63` is above ADDR_MAX. -/
theorem test_out_above_addr_max :
    (after (running [204, 1] [] wmax)).fault = ⟨.addressRange, 9223372036854775808⟩ := by decide

/-- Vector I12's second step: `OUT [rb-3]` with `rb = 3` outputs cell 0. -/
theorem test_out : (after (running [204, -3] [] 3)).outbuf = [204] := by decide

/-- Vector J6: the target is the content of cell 8, not 8. -/
theorem test_jt : (after (running [5, 7, 8, 99, 104, 7, 99, 1, 4])).pc = 4 := by decide

/-- Vector J11: an untaken jump still resolves its target operand. -/
theorem test_jt_untaken_bad_target : (after (running [105, 0, -4, 99])).fault = ⟨.addressRange, -4⟩ := by decide

/-- Vector J8: a never-written condition cell. -/
theorem test_jf : (after (running [1006, 50, 4, 99, 104, 7, 99])).pc = 4 := by decide

/-- Vector J4. -/
theorem test_jf_untaken : (after (running [1106, 5, 4, 99, 104, 7, 99])).pc = 3 := by decide

/-- Vector A24: an unsigned comparison would store 1. -/
theorem test_lt_signed : (after (running [1107, wmax, wmin, 5, 99, 7])).mem.read 5 = 0 := by decide

/-- Vector A20. -/
theorem test_lt : (after (running [1107, -1, 0, 5, 99, 7])).mem.read 5 = 1 := by decide

/-- Vector A29: written over the instruction word itself. -/
theorem test_eq : (after (running [8, 0, 0, 0, 99])).mem.read 0 = 1 := by decide

/-- Vector A27. -/
theorem test_eq_unequal : (after (running [1108, 8, -8, 5, 99, 7])).mem.read 5 = 0 := by decide

/-- Vector B5's second step: the operand is read with the old `rb`. -/
theorem test_arb : (after (running [209, 1, 99, 0, 0, 100] [] 4)).rb = 104 := by decide

/-- Vector B8's second step: one below WMIN. -/
theorem test_arb_overflow :
    (after (running [109, -1, 99] [] wmin)).fault = ⟨.arithmeticOverflow, 109⟩ ∧
    (after (running [109, -1, 99] [] wmin)).rb = wmin := by decide

/-- Vector S1. -/
theorem test_hlt : (after (running [99])).status = .completed ∧ (after (running [99])).pc = 0 := by decide

/-- Vector T2's last step: a fetch at 2^63. -/
theorem test_fetch_above_addr_max :
    (after (placed [] 9223372036854775808)).fault = ⟨.addressRange, 9223372036854775808⟩ := by decide

/-- Table 10-C. -/
theorem test_reset : State.reset.pc = 0 ∧ State.reset.status = .ready ∧ State.reset.mem.wf := by decide

/-- Writing the value an unlisted cell reads as removes the entry. -/
theorem test_write_zero : Memory.write [(3, 5), (7, 1)] 3 0 = [(7, 1)] ∧ Memory.write [(3, 5)] 1 9 = [(1, 9), (3, 5)] := by
  decide

/-- R94's example line, assembled. -/
theorem test_assemble :
    assemble [.label "loop", .instr .add [⟨.position, .number 100⟩, ⟨.immediate, .number 1⟩, ⟨.position, .label "loop" 100⟩],
      .dw [.number (-1)]] = some [1001, 100, 1, 100, -1] := by decide

/-! ## Witnesses: a state and operands that meet all hypotheses of each obligation -/

/-- The empty image, and one that fills the whole address range. -/
theorem witness_StoreHoldsLastWriteOrImage :
    ([] : List Word).length ≤ Config.addrMax + 1 ∧ (List.replicate (Config.addrMax + 1) (7 : Word)).length ≤ Config.addrMax + 1 := by
  simp

theorem witness_EqualStoresAreEqualLists :
    Memory.wf [(0, 5), (Config.addrMax, 1)] ∧
    ∀ a, a ≤ Config.addrMax → Memory.read [(0, 5), (Config.addrMax, 1)] a = Memory.read [(0, 5), (Config.addrMax, 1)] a :=
  ⟨by decide, fun _ _ => rfl⟩

theorem witness_ResetLeavesTable10C :
    ([] : List Word).length ≤ Config.addrMax + 1 ∧ (List.replicate (Config.addrMax + 1) (7 : Word)).length ≤ Config.addrMax + 1 :=
  witness_StoreHoldsLastWriteOrImage

theorem witness_DecodeOfEncode :
    (Instr.add (rel wmin) (imm wmax) (rel (-1))).WellFormed ∧ (Instr.inp (pos wmax)).WellFormed ∧ Instr.hlt.WellFormed := by decide

theorem witness_EncodeOfDecode : decode [1, 9, 10, 3, 99] = .ok (.add (pos 9) (pos 10) (pos 3), [99]) := rfl

/-- Words on both sides of the equivalence (vectors E8, E9, E14, and the legal 204). -/
theorem witness_UnknownParameterModeExactlyWhen :
    HasOpcode 904 .out ∧ HasOpcode 3304 .out ∧ HasOpcode wmax .lt ∧ HasOpcode 204 .out ∧ HasOpcode 399 .hlt := by
  refine ⟨?_, ?_, ?_, ?_, ?_⟩ <;> exact ⟨by decide, by decide⟩

/-- Words on both sides of the equivalence (vectors E16, E24, E25, and the legal 22201 and 99). -/
theorem witness_ReservedEncodingExactlyWhen :
    HasOpcode 1004 .out ∧ HasOpcode 100099 .hlt ∧ HasOpcode 100001 .add ∧ HasOpcode 22201 .add ∧ HasOpcode 99 .hlt := by
  refine ⟨?_, ?_, ?_, ?_, ?_⟩ <;> exact ⟨by decide, by decide⟩

/-- Words on both sides of the equivalence (vectors E27, E32, and the legal 203 and 104). -/
theorem witness_ImmediateDestinationExactlyWhen :
    HasOpcode 103 .inp ∧ HasOpcode 10008 .eq ∧ HasOpcode 203 .inp ∧ HasOpcode 104 .out := by
  refine ⟨?_, ?_, ?_, ?_⟩ <;> exact ⟨by decide, by decide⟩

theorem witness_LengthIsTheArityOfTheOpcode :
    decodeWord 99 = .ok ⟨.hlt, .position, .position, .position⟩ ∧ Opcode.hlt.operandCount ≤ ([] : List Word).length ∧
    decodeWord 1101 = .ok ⟨.add, .immediate, .immediate, .position⟩ ∧ Opcode.add.operandCount ≤ [1, 2, (3 : Word)].length :=
  ⟨rfl, by decide, rfl, by decide⟩

/-- An instruction that ends at ADDR_MAX. -/
theorem witness_StepRunsDecodedInstruction :
    (placed [(Config.addrMax, 99)] wmax).status = .running ∧
    decode ((placed [(Config.addrMax, 99)] wmax).mem.cells (placed [(Config.addrMax, 99)] wmax).pc.toNat 4) =
      .ok (.hlt, [0, 0, 0]) ∧
    (placed [(Config.addrMax, 99)] wmax).pc.toNat + Instr.hlt.arity ≤ Config.addrMax + 1 :=
  ⟨rfl, rfl, by decide⟩

theorem witness_FetchAndDecodeFaults_fetch :
    (placed [] 9223372036854775808).status = .running ∧ Config.addrMax < (placed [] 9223372036854775808).pc.toNat := by decide

/-- One word of each decode fault in the last cell (vectors E1, E8, E15, E27). -/
theorem witness_FetchAndDecodeFaults_decode :
    (placed [] wmax).status = .running ∧ (placed [] wmax).pc.toNat ≤ Config.addrMax ∧
    decodeWord ((placed [] wmax).mem.read (placed [] wmax).pc.toNat) = .error (.unknownOpcode 0) ∧
    decodeWord ((placed [(Config.addrMax, 904)] wmax).mem.read (placed [(Config.addrMax, 904)] wmax).pc.toNat) =
      .error (.unknownParameterMode 9) ∧
    decodeWord ((placed [(Config.addrMax, 9004)] wmax).mem.read (placed [(Config.addrMax, 9004)] wmax).pc.toNat) =
      .error (.reservedEncoding 9004) ∧
    decodeWord ((placed [(Config.addrMax, 103)] wmax).mem.read (placed [(Config.addrMax, 103)] wmax).pc.toNat) =
      .error (.immediateDestination 103) := ⟨rfl, by decide, rfl, rfl, rfl, rfl⟩

theorem witness_FetchAndDecodeFaults_operand :
    (placed [(Config.addrMax, 104)] wmax).status = .running ∧ (placed [(Config.addrMax, 104)] wmax).pc.toNat ≤ Config.addrMax ∧
    decodeWord ((placed [(Config.addrMax, 104)] wmax).mem.read (placed [(Config.addrMax, 104)] wmax).pc.toNat) =
      .ok ⟨.out, .immediate, .position, .position⟩ ∧
    Config.addrMax < (placed [(Config.addrMax, 104)] wmax).pc.toNat + Opcode.out.operandCount := ⟨rfl, by decide, rfl, by decide⟩

theorem witness_IdleWhenNotRunning : State.reset.status ≠ .running := by decide

theorem witness_DecodedWordIsTheHead : fetch (running [21201, 5, 6, 7]) = .ok (.add (rel 5) (imm 6) (rel 7)) := rfl

/-- The unwritten cells at both ends of the range, and an operand that faults. -/
theorem witness_SourceOperandValue :
    Names (placed [(5, 1)] 0) (pos 0) 0 ∧ Names (placed [(5, 1)] 0) (pos wmax) Config.addrMax ∧
    (∀ e ∈ (placed [(5, 1)] 0).mem, e.1 ≠ 0) ∧ (∀ e ∈ (placed [(5, 1)] 0).mem, e.1 ≠ Config.addrMax) ∧
    readValue (placed [(5, 1)] 0) (pos (-1)) = .error ⟨.addressRange, -1⟩ :=
  ⟨names_pos _ _ _ (by decide), names_pos _ _ _ (by decide), by decide, by decide, rfl⟩

/-- The integers nearest the range on both sides, and the farthest (vectors B10, B11). -/
theorem witness_AddressOutOfRangeFaults :
    (rel 1).mode ≠ .immediate ∧ OutOfRange (running [] [] wmax) (rel 1) 9223372036854775808 ∧
    OutOfRange (running [] [] wmax) (rel wmax) 18446744073709551614 ∧ OutOfRange (running []) (pos (-1)) (-1) ∧
    OutOfRange (running [] [] wmin) (rel wmin) (-18446744073709551616) :=
  ⟨by decide, out_rel _ _ _ (by decide), out_rel _ _ _ (by decide), out_pos _ _ _ (by decide), out_rel _ _ _ (by decide)⟩

theorem witness_DestinationIsNotDereferenced :
    (rel 0).mode ≠ .immediate ∧ Names (running [] [] wmax) (rel 0) Config.addrMax ∧
    fetch (running [203, 2]) = .ok (.inp (rel 2)) ∧ (Instr.inp (rel 2)).dest? = some (rel 2) :=
  ⟨by decide, names_rel _ _ _ (by decide), rfl, rfl⟩

/-- Vector A6: the greatest sum. -/
theorem witness_AddStoresTheSum :
    Reads (running []) (imm wmax) wmax ∧ Reads (running []) (pos 0) 0 ∧ Names (running []) (pos wmax) Config.addrMax ∧
    IsWord (wmax.toInt + (0 : Word).toInt) :=
  ⟨reads_imm _ _, reads_pos _ _ _ 0 (by decide) rfl, names_pos _ _ _ (by decide), by decide⟩

/-- Vector A19: the least product. -/
theorem witness_MulStoresTheProduct :
    Reads (running [4294967296] [] 5) (rel (-5)) 4294967296 ∧ Reads (running [4294967296] [] 5) (imm (-2147483648)) (-2147483648) ∧
    Names (running [4294967296] [] 5) (rel (-5)) 0 ∧ IsWord ((4294967296 : Word).toInt * (-2147483648 : Word).toInt) :=
  ⟨reads_rel _ _ _ 0 (by decide) rfl, reads_imm _ _, names_rel _ _ _ (by decide), by decide⟩

theorem witness_LessThanStoresTruth :
    Reads (running []) (imm wmin) wmin ∧ Reads (running []) (imm wmax) wmax ∧ Names (running []) (pos 0) 0 ∧
    exec (.lt (imm wmin) (imm wmax) (pos (-1))) (running []) = .next ((running []).takeFault ⟨.addressRange, -1⟩) :=
  ⟨reads_imm _ _, reads_imm _ _, names_pos _ _ _ (by decide), of_nextState (by decide)⟩

theorem witness_EqualsStoresTruth :
    Reads (running []) (pos 50) 0 ∧ Reads (running []) (imm 0) 0 ∧ Names (running []) (pos 0) 0 ∧
    exec (.eq (pos 50) (imm 0) (pos (-1))) (running []) = .next ((running []).takeFault ⟨.addressRange, -1⟩) :=
  ⟨reads_pos _ _ _ 50 (by decide) rfl, reads_imm _ _, names_pos _ _ _ (by decide), of_nextState (by decide)⟩

/-- Vectors A8, A18 and B8. -/
theorem witness_OverflowFaultsAndWritesNothing :
    (Reads (running []) (imm wmax) wmax ∧ Reads (running []) (imm 1) 1 ∧ Names (running []) (pos 5) 5 ∧
      ¬ IsWord (wmax.toInt + (1 : Word).toInt)) ∧
    (Reads (running []) (imm 4294967296) 4294967296 ∧ Reads (running []) (imm 2147483648) 2147483648 ∧
      ¬ IsWord ((4294967296 : Word).toInt * (2147483648 : Word).toInt)) ∧
    (Reads (running [] [] wmin) (imm (-1)) (-1) ∧ ¬ IsWord ((running [] [] wmin).rb.toInt + (-1 : Word).toInt)) :=
  ⟨⟨reads_imm _ _, reads_imm _ _, names_pos _ _ _ (by decide), by decide⟩, ⟨reads_imm _ _, reads_imm _ _, by decide⟩,
    reads_imm _ _, by decide⟩

theorem witness_InTakesTheHeadOfTheQueue :
    (running [] [1, 2]).inq = [1, 2] ∧ Names (running [] [1, 2]) (pos wmax) Config.addrMax :=
  ⟨rfl, names_pos _ _ _ (by decide)⟩

theorem witness_InWaitsOrFaultsChangingNoInput :
    (running []).inq = [] ∧ (running [] [5]).inq ≠ [] ∧ OutOfRange (running [] [5]) (pos (-1)) (-1) :=
  ⟨rfl, by decide, out_pos _ _ _ (by decide)⟩

/-- An operand that reads, and the integers nearest the range on both sides. -/
theorem witness_OutAppendsItsOperand :
    Reads (running [109] [] 3) (rel (-3)) 109 ∧ OutOfRange (running []) (pos (-1)) (-1) ∧
    OutOfRange (running [] [] wmax) (rel 1) 9223372036854775808 :=
  ⟨reads_rel _ _ _ 0 (by decide) rfl, out_pos _ _ _ (by decide), out_rel _ _ _ (by decide)⟩

/-- Conditions -1 and 0 (vectors J5, J2), targets 0 and ADDR_MAX. -/
theorem witness_JumpIfTrueJumpsOnNonZero :
    Reads (running []) (imm (-1)) (-1) ∧ Reads (running []) (imm 0) 0 ∧ Reads (running []) (imm wmax) wmax ∧
    (-1 : Word) ≠ 0 ∧ 0 ≤ wmax.toInt ∧ 0 ≤ (0 : Word).toInt :=
  ⟨reads_imm _ _, reads_imm _ _, reads_imm _ _, by decide, by decide, by decide⟩

theorem witness_JumpIfFalseJumpsOnZero :
    Reads (running []) (imm 0) 0 ∧ Reads (running []) (imm 5) 5 ∧ Reads (running []) (imm wmax) wmax ∧ (5 : Word) ≠ 0 ∧
    0 ≤ wmax.toInt ∧ Names (running []) (pos 50) 50 ∧ (∀ e ∈ (running []).mem, e.1 ≠ 50) :=
  ⟨reads_imm _ _, reads_imm _ _, reads_imm _ _, by decide, by decide, names_pos _ _ _ (by decide), by decide⟩

theorem witness_TakenJumpToNegativeTargetFaults :
    Reads (running []) (imm 1) 1 ∧ Reads (running []) (imm 0) 0 ∧ Reads (running []) (imm (-1)) (-1) ∧
    (-1 : Word).toInt < 0 ∧ (1 : Word) ≠ 0 :=
  ⟨reads_imm _ _, reads_imm _ _, reads_imm _ _, by decide, by decide⟩

/-- `rb = WMIN` is reachable (vector B8). -/
theorem witness_ArbAddsToTheRelativeBase :
    Reads (running []) (imm wmin) wmin ∧ IsWord ((running []).rb.toInt + wmin.toInt) := ⟨reads_imm _ _, by decide⟩

/-- Each operand in turn out of range (vectors A31, A32, J11, B13). -/
theorem witness_FirstBadOperandIsReported :
    OutOfRange (running []) (pos (-1)) (-1) ∧ OutOfRange (running [] [] wmax) (rel 1) 9223372036854775808 ∧
    Reads (running []) (imm wmax) wmax ∧ Reads (running []) (imm 1) 1 :=
  ⟨out_pos _ _ _ (by decide), out_rel _ _ _ (by decide), reads_imm _ _, reads_imm _ _⟩

/-- A store, and a destination that faults. -/
theorem witness_FrameOfThreeOperandInstructions :
    (exec (.add (imm 1) (imm 2) (pos 9)) (running []) = .next { running [] with mem := [(9, 3)], pc := 4 } ∧
      writeAddress (running []) (Instr.add (imm 1) (imm 2) (pos 9)).head (pos 9) = .ok 9) ∧
    (exec (.mul (imm 1) (imm 2) (pos (-1))) (running []) = .next ((running []).takeFault ⟨.addressRange, -1⟩) ∧
      writeAddress (running []) (Instr.mul (imm 1) (imm 2) (pos (-1))).head (pos (-1)) = .error ⟨.addressRange, -1⟩) :=
  ⟨⟨of_nextState (by decide), rfl⟩, of_nextState (by decide), rfl⟩

/-- A value taken, a destination that faults, and a pause. -/
theorem witness_FrameOfInput :
    (exec (.inp (pos 9)) (running [] [4]) = .next { running [] with mem := [(9, 4)], pc := 2 } ∧ (running [] [4]).inq ≠ [] ∧
      writeAddress (running [] [4]) (Instr.inp (pos 9)).head (pos 9) = .ok 9) ∧
    (exec (.inp (pos (-1))) (running [] [4]) = .next ((running [] [4]).takeFault ⟨.addressRange, -1⟩) ∧
      writeAddress (running [] [4]) (Instr.inp (pos (-1))).head (pos (-1)) = .error ⟨.addressRange, -1⟩) ∧
    (exec (.inp (pos 9)) (running []) = .next (running []).pause ∧ (running []).inq = []) :=
  ⟨⟨of_nextState (by decide), by decide, rfl⟩, ⟨of_nextState (by decide), rfl⟩, of_nextState (by decide), rfl⟩

theorem witness_FrameOfNonStoringInstructions :
    exec (.out (imm 5)) (running []) = .next { running [] with outbuf := [5], pc := 2 } ∧
    exec (.jt (imm 1) (imm 9)) (running []) = .next { running [] with pc := 9 } ∧
    exec (.jf (imm 1) (imm 9)) (running []) = .next { running [] with pc := 3 } ∧
    exec (.arb (imm 5)) (running []) = .next { running [] with rb := 5, pc := 2 } ∧
    exec .hlt (running []) = .next (running []).halt :=
  ⟨of_nextState (by decide), of_nextState (by decide), of_nextState (by decide), of_nextState (by decide),
    of_nextState (by decide)⟩

/-- One step that writes each of the four. -/
theorem witness_OnlyListedInstructionsWrite :
    (step (running [1101, 1, 2, 0]) = .next (after (running [1101, 1, 2, 0])) ∧
      (after (running [1101, 1, 2, 0])).mem ≠ (running [1101, 1, 2, 0]).mem) ∧
    (step (running [109, 1]) = .next (after (running [109, 1])) ∧ (after (running [109, 1])).rb ≠ (running [109, 1]).rb) ∧
    (step (running [3, 0] [7]) = .next (after (running [3, 0] [7])) ∧
      (after (running [3, 0] [7])).inq ≠ (running [3, 0] [7]).inq) ∧
    (step (running [104, 1]) = .next (after (running [104, 1])) ∧
      (after (running [104, 1])).outbuf ≠ (running [104, 1]).outbuf) :=
  ⟨⟨of_nextState (by decide), by decide⟩, ⟨of_nextState (by decide), by decide⟩, ⟨of_nextState (by decide), by decide⟩,
    of_nextState (by decide), by decide⟩

/-- `OUT #0` in the last two cells: `pc` becomes `ADDR_MAX + 1` (vector T2). -/
theorem witness_SequentialAdvanceNeverWraps :
    (placed [(9223372036854775806, 104)] 9223372036854775806).status = .running ∧
    fetch (placed [(9223372036854775806, 104)] 9223372036854775806) = .ok (.out (imm 0)) ∧
    step (placed [(9223372036854775806, 104)] 9223372036854775806) =
      .next (after (placed [(9223372036854775806, 104)] 9223372036854775806)) ∧
    (after (placed [(9223372036854775806, 104)] 9223372036854775806)).status = .running ∧
    (∀ c g x, Instr.out (imm 0) = .jt c g → Reads (placed [(9223372036854775806, 104)] 9223372036854775806) c x → x = 0) ∧
    (∀ c g x, Instr.out (imm 0) = .jf c g → Reads (placed [(9223372036854775806, 104)] 9223372036854775806) c x → x ≠ 0) :=
  ⟨rfl, rfl, of_nextState (by decide), by decide, by simp, by simp⟩

/-- A jump that is not taken meets the same hypotheses (vector J2). -/
theorem witness_SequentialAdvanceNeverWraps_untaken :
    (running [1105, 0, 4]).status = .running ∧ fetch (running [1105, 0, 4]) = .ok (.jt (imm 0) (imm 4)) ∧
    step (running [1105, 0, 4]) = .next (after (running [1105, 0, 4])) ∧ (after (running [1105, 0, 4])).status = .running ∧
    (∀ c g x, Instr.jt (imm 0) (imm 4) = .jt c g → Reads (running [1105, 0, 4]) c x → x = 0) ∧
    (∀ c g x, Instr.jt (imm 0) (imm 4) = .jf c g → Reads (running [1105, 0, 4]) c x → x ≠ 0) := by
  refine ⟨rfl, rfl, of_nextState (by decide), by decide, ?_, by simp⟩
  rintro c g x h (⟨-, hx⟩ | ⟨addr, ⟨⟨h', -⟩ | ⟨h', -⟩, -⟩, -⟩) <;> cases h
  · exact hx
  · cases h'
  · cases h'

/-- A step that goes on by a jump, one that goes on without, and one that ends the run cycle. -/
theorem witness_ProgramCounterUpdateTable10A :
    ((running [1105, 1, 4]).status = .running ∧ step (running [1105, 1, 4]) = .next (after (running [1105, 1, 4])) ∧
      (after (running [1105, 1, 4])).status = .running ∧ Reads (running [1105, 1, 4]) (imm 1) 1 ∧
      fetch (running [1105, 1, 4]) = .ok (.jt (imm 1) (imm 4))) ∧
    (step (running [104, 1]) = .next (after (running [104, 1])) ∧ (after (running [104, 1])).status = .running ∧
      ∀ c g x, Reads (running [104, 1]) c x →
        ¬ ((Instr.out (imm 1) = .jt c g ∧ x ≠ 0) ∨ (Instr.out (imm 1) = .jf c g ∧ x = 0))) ∧
    (step (running [99]) = .next (after (running [99])) ∧ (after (running [99])).status ≠ .running) :=
  ⟨⟨rfl, of_nextState (by decide), by decide, reads_imm _ _, rfl⟩, ⟨of_nextState (by decide), by decide, by simp⟩,
    of_nextState (by decide), by decide⟩

theorem witness_FaultEntryChangesOnlyStatusAndFault :
    (running [0]).status = .running ∧ step (running [0]) = .next (after (running [0])) ∧
    (after (running [0])).status = .faulted := ⟨rfl, of_nextState (by decide), by decide⟩

/-- Both causes of Table 60-B. -/
theorem witness_FaultsByInstructionTable60B :
    ((Instr.arb (imm 1)).WellFormed ∧ (running [] [] wmax).status ≠ .faulted ∧
      exec (.arb (imm 1)) (running [] [] wmax) = .next ((running [] [] wmax).takeFault ⟨.arithmeticOverflow, 109⟩)) ∧
    ((Instr.inp (pos (-1))).WellFormed ∧
      exec (.inp (pos (-1))) (running [] [4]) = .next ((running [] [4]).takeFault ⟨.addressRange, -1⟩)) :=
  ⟨⟨by decide, by decide, of_nextState (by decide)⟩, by decide, of_nextState (by decide)⟩

theorem witness_PauseIsNotAFault :
    (running [3, 5]).status = .running ∧ step (running [3, 5]) = .next (after (running [3, 5])) ∧
    (after (running [3, 5])).status = .pendingInput := ⟨rfl, of_nextState (by decide), by decide⟩

theorem witness_FaultedIsPermanentUntilNew :
    (after (running [0])).status = .faulted ∧
    transact 0 (.new [99]) (after (running [0])) = .made (State.new [99]) .nothing ∧
    transact 0 (.addInputs [1]) (after (running [0])) = .made ((after (running [0])).addInputs [1]) .nothing := by decide

/-- A faulted instance with a value queued. -/
theorem witness_NewDiscardsTheWholeState :
    ((after (running [0])).addInputs [5]).status ≠ .running ∧ ((after (running [0])).addInputs [5]).inq = [5] ∧
    ((after (running [0])).addInputs [5]).fault ≠ .clear ∧
    (List.replicate (Config.addrMax + 1) (7 : Word)).length ≤ Config.addrMax + 1 :=
  ⟨by decide, by decide, by decide, by simp⟩

/-- The three ends, each in one step. -/
theorem witness_EndsOfARunCycle :
    (State.new [3, 5]).status ≠ .faulted ∧
    transact 1 .run (State.new [3, 5]) = .made (after (running [3, 5])) (.result (.pendingInput [])) ∧
    transact 1 .run (State.new [99]) = .made (after (running [99])) (.result (.completed [])) ∧
    transact 1 .run (State.new [0]) = .made (after (running [0])) (.result (.fault ⟨.unknownOpcode, 0⟩)) := by decide

theorem witness_RunAgainWithoutInputChangesNothing :
    transact 1 .run (State.new [99]) = .made (after (running [99])) (.result (.completed [])) ∧
    transact 1 .run (State.new [3, 5]) = .made (after (running [3, 5])) (.result (.pendingInput [])) := by decide

theorem witness_MoreFuelGivesTheSameRun : runCycle 1 (State.new [99]) = some (after (running [99])) ∧ 1 ≤ 2 := by decide

/-- Vector E41's image: the queue is empty at the first RUN, then holds the HLT that IN writes after itself. -/
theorem witness_ResumedRunEqualsInputsQueuedAtOnce :
    runCycle 1 (State.new [203, 2, 0]) = some (after (running [203, 2, 0])) ∧
    (after (running [203, 2, 0])).status = .pendingInput ∧
    runCycle 2 ((after (running [203, 2, 0])).addInputs [99]) = some (after (after (running [203, 2, 0] [99]))) := by decide

theorem witness_AddInputsOnlyAppends : State.reset.status ≠ .running := by decide

theorem witness_NoTransactionWhileRunningAndPeekIsPure :
    (running []).status = .running ∧ State.reset.status ≠ .running ∧ Config.addrMax ≤ Config.addrMax := by decide

theorem witness_InstancesDoNotInteract :
    transactAll 1 [State.new [99], State.new [3, 5]] [(1, .run), (0, .run), (1, .addInputs [7])] =
      some ([after (running [99]), (after (running [3, 5])).addInputs [7]],
        [.result (.pendingInput []), .result (.completed []), .nothing]) ∧
    [State.new [99], State.new [3, 5]][1]? = some (State.new [3, 5]) := by decide

/-- Both ends of the Blocking Runner without a fault. -/
theorem witness_BlockingRunnerNeverRecordsInsufficientInput :
    runCycle 1 ((State.new [99]).addInputs []) = some (after (running [99])) ∧
    runCycle 1 ((State.new [3, 5]).addInputs []) = some (after (running [3, 5])) ∧
    (after (running [3, 5])).status = .pendingInput := by decide

theorem witness_StepKeepsTheInvariant :
    (running [104, 7]).Inv ∧ step (running [104, 7]) = .next (after (running [104, 7])) :=
  ⟨⟨by decide, by decide, by decide, by decide, by decide, by decide, by decide⟩, of_nextState (by decide)⟩

/-- A completed and a pausing instance are reachable. -/
theorem witness_ReachableStatesMeetTheInvariant :
    (Reachable (after (running [99])) ∧ (after (running [99])).status = .completed) ∧
    (Reachable (after (running [3, 5])) ∧ (after (running [3, 5])).status = .pendingInput) := by
  refine ⟨⟨.step (running [99]) _ ?_ (of_nextState (by decide)), by decide⟩,
    .step (running [3, 5]) _ ?_ (of_nextState (by decide)), by decide⟩
  · rw [show running [99] = (State.new [99]).beginRun by decide]
    exact .beginRun _ (.new _ (by decide)) (by decide)
  · rw [show running [3, 5] = (State.new [3, 5]).beginRun by decide]
    exact .beginRun _ (.new _ (by decide)) (by decide)

end Sys2Proof.Tests
end

