-- ==== Sys2Proof/Proofs/Store.lean ====
section
/-! PROOFS. What the store holds after a load and after a sequence of writes (spec/20_memory.md R51). -/

namespace Sys2Proof.Machine.Memory

variable (m : Memory) (a b : Nat)

/-- R57, Table 20-A: cells loaded from `a` up that all fit are read back, every other cell keeps its word. -/
theorem read_writeCells (vs : List Word) (hfit : a + vs.length ≤ Config.addrMax + 1) :
    (m.writeCells a vs).read b = if b < a then m.read b else vs.getD (b - a) (m.read b) := by
  induction vs generalizing m a with
  | nil => simp [Memory.writeCells]
  | cons v vs ih =>
    simp only [List.length_cons] at hfit
    have ha : a ≤ Config.addrMax := by omega
    have hload : (m.writeCells a (v :: vs)).read b =
        if b < a + 1 then (m.write a v).read b else vs.getD (b - (a + 1)) ((m.write a v).read b) := by
      simpa only [Memory.writeCells, if_pos ha] using ih (m.write a v) (a + 1) (by omega)
    rw [hload]
    obtain hb | rfl | hb := Nat.lt_trichotomy b a
    · simp [hb, Nat.lt_succ_of_lt hb, read_write_other m a b v hb.ne]
    · simp
    · have hshift : b - a = (b - (a + 1)) + 1 := by omega
      rw [if_neg (by omega), if_neg (by omega), read_write_other m a b v hb.ne', hshift, List.getD_cons_succ]

/-- R51: the reset value of every cell. -/
theorem read_new (image : List Word) (hfit : image.length ≤ Config.addrMax + 1) :
    (State.new image).mem.read a = image.getD a 0 := by
  simp [read_writeCells [] 0 a image (by omega)]

/-- R51, R54: after a sequence of writes, by induction on it from its end: the last write is to `a` or does not concern `a`. -/
theorem read_foldl_write (ws : List (Nat × Word)) :
    (ws.foldl (fun m e => m.write e.1 e.2) m).read a =
      ((ws.reverse.find? fun e => e.1 == a).map Prod.snd).getD (m.read a) := by
  induction ws using List.reverseRecOn with
  | nil => rfl
  | append_singleton ws e ih =>
    rw [List.foldl_append, List.reverse_append]
    by_cases he : e.1 = a
    · subst he
      simp
    · simp [read_write_other _ e.1 a e.2 (Ne.symm he), he, ih]

end Sys2Proof.Machine.Memory

open Sys2Proof.Machine

/-- Settles O1: the sequence of writes acts on the store that `NEW(image)` leaves. -/
theorem storeHoldsLastWriteOrImage : Obligations.StoreHoldsLastWriteOrImage := by
  intro image ws a hfit
  rw [Memory.read_foldl_write, Memory.read_new a image hfit]
  cases ws.reverse.find? fun e => e.1 == a with
  | none => rfl
  | some e => rfl
end

