-- ==== Sys2Proof/Proofs/Length.lean ====
section
/-! PROOFS. The length of an instruction, and how many cells decoding consumes (spec/30_encoding.md R84, R85, Table 30-C). -/

namespace Sys2Proof

/-- Table 30-C, Table 30-B: an instruction has as many operands as its opcode's row says. -/
@[simp] theorem Instr.length_args (i : Instr) : i.args.length = i.opcode.operandCount := by
  cases i <;> rfl

/-- R85: the encoding of an instruction occupies as many cells as its arity. -/
@[simp] theorem length_encode (i : Instr) : (encode i).length = i.arity := by
  simp [encode, Instr.arity, Opcode.arity, Nat.add_comm]

/-- R113: the typed instruction keeps the operation the header names. -/
@[simp] theorem Header.opcode_instr (h : Header) (ps : List Word) : (h.instr ps).opcode = h.op := by
  obtain ⟨op, m1, m2, m3⟩ := h
  cases op <;> rfl

/-- R84: a legal instruction word followed by enough cells decodes, and the operand words are the cells consumed after it. -/
theorem decode_cons_of_header {w : Word} {h : Header} {rest : List Word} (hw : decodeWord w = .ok h)
    (hlen : h.op.operandCount ≤ rest.length) :
    decode (w :: rest) = .ok (h.instr (rest.take h.op.operandCount), rest.drop h.op.operandCount) := by
  simp [decode, hw, Nat.not_lt.mpr hlen]

end Sys2Proof

open Sys2Proof

/-- Settles O12: an instruction has the operands its opcode's row of Table 30-C counts, and decoding keeps the opcode. -/
theorem lengthIsTheArityOfTheOpcode : Obligations.LengthIsTheArityOfTheOpcode := by
  refine ⟨fun i => ⟨rfl, ?_, length_encode i⟩, by decide, fun w h rest hw hlen => ?_⟩
  · rw [Instr.length_args]
    rfl
  · have hconsumed : h.op.arity - 1 = h.op.operandCount := Nat.add_sub_cancel_left ..
    exact ⟨_, _, decode_cons_of_header hw hlen, h.opcode_instr _, by rw [hconsumed]⟩
end

