-- ==== Sys2Proof/Proofs/Operands.lean ====
section
/-! PROOFS. What the two operand resolvers answer, said with the address formulas of the spec
(spec/40_step_fetch_decode_resolve.md R117 to R119). -/

namespace Sys2Proof.Machine

variable {s : State} {a : Arg} {addr : Nat}

/-- R117: the operand names the cell at `addr` exactly when its address sum passes the range check as `addr`. -/
theorem names_iff : Names s a addr ↔ ∃ ea, addressSum s.rb a = some ea ∧ checkAddress ea = .ok addr := by
  simp [Names, addressSum_some, checkAddress_ok]

/-- R117: an immediate operand forms no address. -/
theorem FormsAddress.mode_ne_immediate {ea : Int} (h : FormsAddress s a ea) : a.mode ≠ .immediate := by
  obtain ⟨hmode, -⟩ | ⟨hmode, -⟩ := h <;> simp [hmode]

/-- R118: an immediate operand reads as its own word. -/
theorem readValue_of_immediate (h : a.mode = .immediate) : readValue s a = .ok a.word := by
  simp [readValue, (addressSum_none s a).2 h]

/-- R118: an operand that names a cell reads as the word in that cell. -/
theorem readValue_of_names (h : Names s a addr) : readValue s a = .ok (s.mem.read addr) := by
  obtain ⟨ea, hsum, hcheck⟩ := names_iff.1 h
  simp [readValue, hsum, hcheck]

/-- R118: a source operand resolves to what it reads as in the spec's prose. -/
theorem readValue_ok {v : Word} : readValue s a = .ok v ↔ Reads s a v := by
  constructor
  · intro h
    unfold readValue at h
    split at h
    case h_1 hsum =>
      cases h
      exact .inl ⟨(addressSum_none s a).1 hsum, rfl⟩
    case h_2 ea hsum =>
      split at h
      case h_1 => cases h
      case h_2 addr hcheck =>
        cases h
        exact .inr ⟨addr, names_iff.2 ⟨ea, hsum, hcheck⟩, rfl⟩
  · rintro (⟨himm, rfl⟩ | ⟨addr, hnames, rfl⟩)
    · exact readValue_of_immediate himm
    · exact readValue_of_names hnames

/-- R117, R118: a source operand faults exactly when the integer it forms is no address, and the fault carries that integer. -/
theorem readValue_error {f : FaultRecord} :
    readValue s a = .error f ↔ ∃ ea, OutOfRange s a ea ∧ f = addressRange ea := by
  constructor
  · intro h
    unfold readValue at h
    split at h
    case h_1 => cases h
    case h_2 ea hsum =>
      split at h
      case h_1 e hcheck =>
        cases h
        obtain ⟨hf, hrange⟩ := (checkAddress_error ea f).1 hcheck
        exact ⟨ea, ⟨(addressSum_some s a ea).1 hsum, hrange⟩, hf⟩
      case h_2 => cases h
  · rintro ⟨ea, ⟨hforms, hrange⟩, rfl⟩
    have hcheck : checkAddress ea = .error (addressRange ea) := (checkAddress_error ea _).2 ⟨rfl, hrange⟩
    simp [readValue, (addressSum_some s a ea).2 hforms, hcheck]

/-- R119: a destination operand resolves to the address it names, in the modes the encoding admits and in no other. -/
theorem writeAddress_ok {w : Word} : writeAddress s w a = .ok addr ↔ Names s a addr := by
  rw [names_iff]
  unfold writeAddress
  split
  case h_1 hsum => simp [hsum]
  case h_2 ea hsum => simp [hsum]

/-- R31, R51: a cell that the store does not list reads as 0. -/
theorem Memory.read_of_not_listed {m : Memory} (h : ∀ e ∈ m, e.1 ≠ addr) : m.read addr = 0 := by
  induction m with
  | nil => rfl
  | cons e rest ih =>
    obtain ⟨hhead, hrest⟩ := List.forall_mem_cons.1 h
    rw [Memory.read_cons, if_neg hhead, ih hrest]

end Sys2Proof.Machine

open Sys2Proof.Machine

/-- Settles O18: what the resolver answers is what the operand reads as, and its one fault is that of the range check. -/
theorem sourceOperandValue : Obligations.SourceOperandValue := by
  refine fun s a => ⟨fun v => readValue_ok, fun addr hnames hfree => ?_, fun f hf => ?_⟩
  · rw [readValue_of_names hnames, Memory.read_of_not_listed hfree]
  · obtain ⟨ea, ⟨hforms, -⟩, rfl⟩ := readValue_error.1 hf
    exact ⟨rfl, hforms.mode_ne_immediate⟩
end

