-- ==== Sys2Proof/Proofs/Fetch.lean ====
section
/-! PROOFS. What a successful decode and a successful fetch say about the instruction and about the cells it stands in
(spec/30_encoding.md R88 to R92, spec/40_step_fetch_decode_resolve.md R111 to R114). -/

namespace Sys2Proof

/-- R82: only the digit 1 stands for the immediate mode. -/
theorem Mode.ofDigit_eq_immediate {d : Nat} : Mode.ofDigit d = .immediate ↔ d = 1 := by
  unfold Mode.ofDigit
  split
  · simp; omega
  · split <;> simp_all

/-- R88, R89, R91: the digits of a word that passes all checks, and the header it gives. -/
theorem checkDigits_ok {w : Word} {op : Opcode} {ds : List Nat} {hi : Nat} {h : Header} :
    checkDigits w op ds hi = .ok h ↔
      (∀ d ∈ ds.take op.operandCount, d ≤ 2) ∧ ((∀ d ∈ ds.drop op.operandCount, d = 0) ∧ hi = 0) ∧
      (∀ k ∈ op.destOperand?, ds.getD (k - 1) 0 ≠ 1) ∧
      h = ⟨op, .ofDigit (ds.getD 0 0), .ofDigit (ds.getD 1 0), .ofDigit (ds.getD 2 0)⟩ := by
  have hmodes : (ds.take op.operandCount).find? (2 < ·) = none ↔ ∀ d ∈ ds.take op.operandCount, d ≤ 2 := by simp
  have hreserved : ((ds.drop op.operandCount).any (· != 0) || hi != 0) = true ↔
      ¬ ((∀ d ∈ ds.drop op.operandCount, d = 0) ∧ hi = 0) := by
    simp [imp_iff_not_or]
  have hdest : op.destOperand?.any (fun k => ds.getD (k - 1) 0 == 1) = true ↔
      ¬ ∀ k ∈ op.destOperand?, ds.getD (k - 1) 0 ≠ 1 := by
    cases op.destOperand? <;> simp
  unfold checkDigits
  rw [← hmodes]
  split
  case h_1 d hbad => simp [hbad]
  case h_2 hnone =>
    rw [if_congr hreserved rfl rfl, if_congr hdest rfl rfl]
    split_ifs with hzeros hlegal
    · rw [Except.ok.injEq, eq_comm]
      exact ⟨fun hh => ⟨hnone, hzeros, hlegal, hh⟩, fun ⟨_, _, _, hh⟩ => hh⟩
    · exact ⟨nofun, fun ⟨_, _, hlegal', _⟩ => absurd hlegal' hlegal⟩
    · exact ⟨nofun, fun ⟨_, hzeros', _⟩ => absurd hzeros' hzeros⟩

/-- R83, R91: whatever its operand words, an instruction whose word decodes has no immediate destination. -/
theorem wellFormed_of_decodeWord {w : Word} {h : Header} (hw : decodeWord w = .ok h) (ps : List Word) :
    (h.instr ps).WellFormed := by
  unfold decodeWord at hw
  split at hw
  case isTrue => cases hw
  case isFalse =>
    split at hw
    case h_1 => cases hw
    case h_2 op _ =>
      obtain ⟨-, -, hdest, rfl⟩ := checkDigits_ok.1 hw
      cases op <;>
        simp_all [Header.instr, Instr.WellFormed, Instr.dest?, Opcode.destOperand?, Mode.ofDigit_eq_immediate]

end Sys2Proof

namespace Sys2Proof.Machine

variable {s : State} {i : Instr}

/-- R114: operand fetch that succeeds has stayed at or below `ADDR_MAX`. -/
theorem fetchOperands_fits {m : Memory} {pc k n : Nat} {ps : List Word} (h : fetchOperands m pc k n = .ok ps)
    (hk : pc + k ≤ Config.addrMax + 1) : pc + k + n ≤ Config.addrMax + 1 := by
  induction n generalizing k ps with
  | zero => exact hk
  | succ n ih =>
    unfold fetchOperands at h
    split at h
    case isTrue => cases h
    case isFalse hcell =>
      split at h
      case h_1 => cases h
      case h_2 rest hrest =>
        have := ih hrest (by omega)
        omega

/-- R111 to R114: an instruction is fetched when its word lies in memory and decodes and its operand words are fetched. -/
theorem fetch_ok : fetch s = .ok i ↔
    s.pc.toNat ≤ Config.addrMax ∧ ∃ h, decodeWord (s.mem.read s.pc.toNat) = .ok h ∧
      ∃ ps, fetchOperands s.mem s.pc.toNat 1 h.op.operandCount = .ok ps ∧ i = h.instr ps := by
  unfold fetch
  split
  case isTrue hpc => simp [Nat.not_le.mpr hpc]
  case isFalse hpc =>
    split
    case h_1 f hw => simp [hw]
    case h_2 h hw =>
      split
      case h_1 f hps => simp [hw, hps]
      case h_2 ps hps => simp [hw, hps, Nat.not_lt.mp hpc, eq_comm]

/-- R91: a fetched instruction is well formed. -/
theorem wellFormed_of_fetch (h : fetch s = .ok i) : i.WellFormed := by
  obtain ⟨-, header, hw, ps, -, rfl⟩ := fetch_ok.1 h
  exact wellFormed_of_decodeWord hw ps

/-- R114, R121: the last cell of a fetched instruction is at most `ADDR_MAX`. -/
theorem pc_add_arity_le_of_fetch (h : fetch s = .ok i) : s.pc.toNat + i.arity ≤ Config.addrMax + 1 := by
  obtain ⟨hpc, header, -, ps, hps, rfl⟩ := fetch_ok.1 h
  have hfit := fetchOperands_fits hps (by omega)
  simpa [Instr.arity, Opcode.arity, Nat.add_assoc] using hfit

end Sys2Proof.Machine

open Sys2Proof.Machine

/-- Settles O20: the resolver of destinations looks at `rb` and the operand only, and the decoder lets no immediate
destination through. -/
theorem destinationIsNotDereferenced : Obligations.DestinationIsNotDereferenced := by
  refine ⟨fun s d w addr _ => writeAddress_ok, fun s d w m => rfl, fun s i d hfetch hd => ?_⟩
  exact wellFormed_of_fetch hfetch d hd
end

