-- ==== Sys2Proof/Proofs/Advance.lean ====
section
/-! PROOFS. Where `pc` is after an instruction with which the run cycle goes on (spec/40_step_fetch_decode_resolve.md R121,
R122): every other end of a step writes `STATUS`. -/

namespace Sys2Proof.Machine

variable {s t : State} {a b d : Arg}

/-- R151, R152: `i` is a jump whose condition holds in `s`. -/
def TakesJump (s : State) (i : Instr) : Prop :=
  ∃ c g x, Reads s c x ∧ ((i = .jt c g ∧ x ≠ 0) ∨ (i = .jf c g ∧ x = 0))

/-- R121, R130: ADD, MUL, LT, EQ advance `pc` when the run cycle goes on. -/
theorem binaryOp_pc {i : Instr} {f : Int → Int → Int} (h : binaryOp i f a b d s = .next t) (ht : t.status = .running) :
    t.pc = s.pc + BitVec.ofNat 64 i.arity := by
  obtain ⟨x, y, addr, r, -, -, -, -, rfl⟩ | ⟨e, rfl, -⟩ := binaryOp_cases h
  · rfl
  · cases ht

/-- R121, R150: JT and JF advance `pc` when the run cycle goes on, unless their condition holds. -/
theorem jumpIf_pc {i : Instr} {taken : Word → Bool} (h : jumpIf i taken a b s = .next t) (ht : t.status = .running)
    (huntaken : ∀ x, Reads s a x → taken x = false) : t.pc = s.pc + BitVec.ofNat 64 i.arity := by
  obtain ⟨x, y, addr, hx, -, htaken, -, -⟩ | ⟨x, y, -, -, -, rfl⟩ | ⟨e, rfl, -⟩ := jumpIf_cases h
  · simp [huntaken x (readValue_ok.1 hx)] at htaken
  · rfl
  · cases ht

/-- R121, R140: IN advances `pc` when the run cycle goes on. -/
theorem execIn_pc (h : execIn d s = .next t) (ht : t.status = .running) :
    t.pc = s.pc + BitVec.ofNat 64 (Instr.inp d).arity := by
  obtain ⟨-, rfl⟩ | ⟨v, rest, addr, -, -, rfl⟩ | ⟨v, rest, e, -, -, rfl⟩ := execIn_cases h
  · cases ht
  · rfl
  · cases ht

/-- R121, R141: OUT advances `pc` when the run cycle goes on. -/
theorem execOut_pc (h : execOut a s = .next t) (ht : t.status = .running) :
    t.pc = s.pc + BitVec.ofNat 64 (Instr.out a).arity := by
  obtain ⟨v, -, rfl⟩ | ⟨e, -, rfl⟩ := execOut_cases h
  · rfl
  · cases ht

/-- R121, R160: ARB advances `pc` when the run cycle goes on. -/
theorem execArb_pc (h : execArb a s = .next t) (ht : t.status = .running) :
    t.pc = s.pc + BitVec.ofNat 64 (Instr.arb a).arity := by
  obtain ⟨v, r, -, -, rfl⟩ | ⟨e, rfl, -⟩ := execArb_cases h
  · rfl
  · cases ht

/-- R121: an instruction with which the run cycle goes on advances `pc` by its arity, unless it is a taken jump. HLT never
goes on. -/
theorem exec_pc {i : Instr} (h : exec i s = .next t) (ht : t.status = .running) (hjump : ¬ TakesJump s i) :
    t.pc = s.pc + BitVec.ofNat 64 i.arity := by
  cases i with
  | add a b d => exact binaryOp_pc h ht
  | mul a b d => exact binaryOp_pc h ht
  | lt a b d => exact binaryOp_pc h ht
  | eq a b d => exact binaryOp_pc h ht
  | inp d => exact execIn_pc h ht
  | out a => exact execOut_pc h ht
  | arb a => exact execArb_pc h ht
  | hlt =>
    obtain rfl := execHlt_next.1 h
    cases ht
  | jt c g =>
    refine jumpIf_pc h ht fun x hx => ?_
    by_contra htaken
    exact hjump ⟨c, g, x, hx, .inl ⟨rfl, by simpa [jumpsOnNonZero] using htaken⟩⟩
  | jf c g =>
    refine jumpIf_pc h ht fun x hx => ?_
    by_contra htaken
    exact hjump ⟨c, g, x, hx, .inr ⟨rfl, by simpa [jumpsOnZero] using htaken⟩⟩

/-- R110: a running step whose fetch succeeds is the meaning of the fetched instruction. -/
theorem step_of_fetch {i : Instr} (hs : s.status = .running) (hfetch : fetch s = .ok i) : step s = exec i s := by
  simp [step, hs, hfetch]

/-- R121: adding the arity of a fetched instruction to `pc` does not wrap. -/
theorem toNat_pc_add_arity {i : Instr} (hfetch : fetch s = .ok i) :
    (s.pc + BitVec.ofNat 64 i.arity).toNat = s.pc.toNat + i.arity := by
  have hfit := pc_add_arity_le_of_fetch hfetch
  simp only [Config.addrMax] at hfit
  rw [BitVec.toNat_add, BitVec.toNat_ofNat, Nat.add_mod_mod, Nat.mod_eq_of_lt (by omega)]

end Sys2Proof.Machine

open Sys2Proof.Machine

/-- Settles O39: the step advances `pc` as a 64-bit register, and the fetched instruction ends at or below `ADDR_MAX`. -/
theorem sequentialAdvanceNeverWraps : Obligations.SequentialAdvanceNeverWraps := by
  intro s t i hs hfetch hstep ht hjt hjf
  have hjump : ¬ TakesJump s i := by
    rintro ⟨c, g, x, hx, ⟨hi, hne⟩ | ⟨hi, hzero⟩⟩
    · exact hne (hjt c g x hi hx)
    · exact hjf c g x hi hx hzero
  have hexec : exec i s = .next t := step_of_fetch hs hfetch ▸ hstep
  have hpc : t.pc.toNat = s.pc.toNat + i.arity := by
    rw [exec_pc hexec ht hjump, toNat_pc_add_arity hfetch]
  exact ⟨hpc, hpc ▸ pc_add_arity_le_of_fetch hfetch⟩
end

