-- ==== Sys2Proof/Proofs/Compare.lean ====
section
/-! PROOFS. What the shared shape of ADD, MUL, LT and EQ answers when every operand is good, which faults it can take, and that
the truth words of LT and EQ are always in range (spec/41_arithmetic_compare.md R130, R133, R134). -/

namespace Sys2Proof.Machine

variable {s t : State} {a b d : Arg}

/-- R91, R117, R119: a destination operand faults when it is immediate, with the instruction word, or when the integer it forms
is no address, with that integer. -/
theorem writeAddress_error {w : Word} {f : FaultRecord} :
    writeAddress s w d = .error f ↔
      (d.mode = .immediate ∧ f = decodeRecord (.immediateDestination w)) ∨
        ∃ ea, OutOfRange s d ea ∧ f = addressRange ea := by
  unfold writeAddress
  split
  case h_1 hsum =>
    have himm : d.mode = .immediate := (addressSum_none s d).1 hsum
    have hforms : ∀ ea, ¬ FormsAddress s d ea := fun ea h => h.mode_ne_immediate himm
    simp [himm, OutOfRange, hforms, eq_comm]
  case h_2 ea hsum =>
    have himm : d.mode ≠ .immediate := ((addressSum_some s d ea).1 hsum).mode_ne_immediate
    simp [himm, OutOfRange, ← addressSum_some, hsum, checkAddress_error, and_comm]

/-- R130: with both sources readable, the destination in range and a result that is a word, the one write is done and `pc`
advances. -/
theorem binaryOp_of_reads {i : Instr} {f : Int → Int → Int} {x y : Word} {addr : Nat} (hx : Reads s a x) (hy : Reads s b y)
    (hd : Names s d addr) (hword : IsWord (f x.toInt y.toInt)) :
    binaryOp i f a b d s = .next ((s.store addr (Word.ofInt (f x.toInt y.toInt))).advance i.arity) := by
  simp [binaryOp, readValue_ok.2 hx, readValue_ok.2 hy, writeAddress_ok.2 hd, (narrow_some _ _).2 ⟨hword, rfl⟩]

/-- R130: an operation whose results are all words records no `ArithmeticOverflow`; its only faults are those of its
operands. -/
theorem binaryOp_no_overflow {i : Instr} {f : Int → Int → Int} (hword : ∀ m n, IsWord (f m n))
    (h : binaryOp i f a b d s = .next t) : t.fault = s.fault ∨ t.fault.cause ≠ .arithmeticOverflow := by
  obtain ⟨x, y, addr, r, -, -, -, -, rfl⟩ | ⟨e, rfl, ha | hb | hd | ⟨-, x, y, -, -, hnone⟩⟩ := binaryOp_cases h
  · exact .inl rfl
  · obtain ⟨ea, -, rfl⟩ := readValue_error.1 ha
    simp [addressRange]
  · obtain ⟨ea, -, rfl⟩ := readValue_error.1 hb
    simp [addressRange]
  · obtain ⟨-, rfl⟩ | ⟨ea, -, rfl⟩ := writeAddress_error.1 hd
    · simp [decodeRecord]
    · simp [addressRange]
  · exact absurd (hword _ _) ((narrow_none _).1 hnone)

/-- R133: the result of LT is always a word. -/
theorem isWord_lessThan (m n : Int) : IsWord (lessThan m n) := by
  unfold lessThan
  split <;> decide

/-- R133: the result of LT as a word. -/
theorem ofInt_lessThan (m n : Int) : Word.ofInt (lessThan m n) = if m < n then 1 else 0 := by
  unfold lessThan
  split <;> rfl

/-- R134: the result of EQ is always a word. -/
theorem isWord_equals (m n : Int) : IsWord (equals m n) := by
  unfold equals
  split <;> decide

/-- R134: the result of EQ as a word. -/
theorem ofInt_equals (m n : Int) : Word.ofInt (equals m n) = if m = n then 1 else 0 := by
  unfold equals
  split <;> rfl

end Sys2Proof.Machine

open Sys2Proof.Machine

/-- Settles O23: LT is the shared operation at `lessThan`, whose results are all words. -/
theorem lessThanStoresTruth : Obligations.LessThanStoresTruth := by
  refine ⟨fun s a b d x y addr hx hy hd => ?_, fun s t a b d h => binaryOp_no_overflow isWord_lessThan h⟩
  rw [← ofInt_lessThan]
  exact binaryOp_of_reads hx hy hd (isWord_lessThan _ _)

/-- Settles O24: EQ is the shared operation at `equals`, whose results are all words. -/
theorem equalsStoresTruth : Obligations.EqualsStoresTruth := by
  refine ⟨fun s a b d x y addr hx hy hd => ?_, fun s t a b d h => binaryOp_no_overflow isWord_equals h⟩
  rw [← ofInt_equals]
  exact binaryOp_of_reads hx hy hd (isWord_equals _ _)
end

