-- ==== Sys2Proof/Proofs/Jumps.lean ====
section
/-! PROOFS. What the shared shape of JT and JF answers when both operands read: the jump and the fall-through
(spec/43_jumps.md R150 to R152). -/

namespace Sys2Proof.Machine

variable {s : State} {c g : Arg} {x y : Word}

/-- R58, R150: a word that is not negative is an address, its own unsigned value. -/
theorem checkAddress_of_nonneg (hy : 0 ≤ y.toInt) : checkAddress y.toInt = .ok y.toNat := by
  have hsmall : 2 * y.toNat < 2 ^ 64 := BitVec.toInt_pos_iff.1 hy
  refine (checkAddress_ok _ _).2 ⟨BitVec.toInt_eq_toNat_of_lt hsmall, ?_⟩
  simp only [Config.addrMax]
  omega

/-- R122, R150: with both operands readable and a target that is not negative, a jump whose condition holds sets `pc` to the
target value. -/
theorem jumpIf_of_taken {i : Instr} {taken : Word → Bool} (hx : Reads s c x) (hy : Reads s g y) (htaken : taken x = true)
    (hnonneg : 0 ≤ y.toInt) : jumpIf i taken c g s = .next (s.jump y) := by
  simp [jumpIf, readValue_ok.2 hx, readValue_ok.2 hy, htaken, checkAddress_of_nonneg hnonneg]

/-- R121, R150, D12: with both operands readable, a jump whose condition does not hold advances `pc`; the value of its target
is not looked at. -/
theorem jumpIf_of_untaken {i : Instr} {taken : Word → Bool} (hx : Reads s c x) (hy : Reads s g y)
    (huntaken : taken x = false) : jumpIf i taken c g s = .next (s.advance i.arity) := by
  simp [jumpIf, readValue_ok.2 hx, readValue_ok.2 hy, huntaken]

/-- R151: the condition of JT holds of every word but 0. -/
theorem jumpsOnNonZero_iff : jumpsOnNonZero x = true ↔ x ≠ 0 := bne_iff_ne

/-- R152: the condition of JF holds of 0 only. -/
theorem jumpsOnZero_iff : jumpsOnZero x = true ↔ x = 0 := beq_iff_eq

/-- R31, R118: an operand that names a cell the store does not list reads as 0. -/
theorem Reads.zero_of_not_listed {addr : Nat} (hnames : Names s c addr) (hfree : ∀ e ∈ s.mem, e.1 ≠ addr) : Reads s c 0 :=
  .inr ⟨addr, hnames, (Memory.read_of_not_listed hfree).symm⟩

/-- R152: JF jumps when its condition reads as 0. -/
theorem exec_jf_of_zero (hc : Reads s c 0) (hg : Reads s g y) (hnonneg : 0 ≤ y.toInt) :
    exec (.jf c g) s = .next (s.jump y) :=
  jumpIf_of_taken hc hg (jumpsOnZero_iff.2 rfl) hnonneg

end Sys2Proof.Machine

open Sys2Proof.Machine

/-- Settles O29: JT is the shared jump at `jumpsOnNonZero`, and its arity is 3. -/
theorem jumpIfTrueJumpsOnNonZero : Obligations.JumpIfTrueJumpsOnNonZero := by
  refine fun s c g x y hc hg => ⟨fun hne hnonneg => ?_, fun hzero => ?_⟩
  · exact jumpIf_of_taken hc hg (jumpsOnNonZero_iff.2 hne) hnonneg
  · have huntaken : jumpsOnNonZero x = false := Bool.eq_false_iff.2 fun h => jumpsOnNonZero_iff.1 h hzero
    exact jumpIf_of_untaken hc hg huntaken

/-- Settles O30: JF is the shared jump at `jumpsOnZero`, its arity is 3, and a never-written condition cell reads as 0. -/
theorem jumpIfFalseJumpsOnZero : Obligations.JumpIfFalseJumpsOnZero := by
  refine ⟨fun s c g x y hc hg => ⟨fun hzero hnonneg => ?_, fun hne => ?_⟩, fun s c g addr y hnames hfree hg hnonneg => ?_⟩
  · subst hzero
    exact exec_jf_of_zero hc hg hnonneg
  · have huntaken : jumpsOnZero x = false := Bool.eq_false_iff.2 fun h => hne (jumpsOnZero_iff.1 h)
    exact jumpIf_of_untaken hc hg huntaken
  · exact exec_jf_of_zero (.zero_of_not_listed hnames hfree) hg hnonneg
end

