-- ==== Sys2Proof/Proofs/Pause.lean ====
section
/-! PROOFS. Which steps can pause: every instruction but IN and HLT leaves `STATUS` as it was or faults, HLT completes, and IN
pauses on an empty queue only (spec/42_input_output.md R140, spec/60_exceptions.md R206). -/

namespace Sys2Proof.Machine

open Claims (QuietOrFaulted)

variable {s t : State} {a b d : Arg}

/-- R130: ADD, MUL, LT, EQ leave `STATUS` and `FAULT` or take one fault. -/
theorem binaryOp_quietOrFaulted {i : Instr} {f : Int → Int → Int} (h : binaryOp i f a b d s = .next t) :
    QuietOrFaulted s t := by
  obtain ⟨x, y, addr, r, -, -, -, -, rfl⟩ | ⟨e, rfl, -⟩ := binaryOp_cases h
  · exact .inl ⟨rfl, rfl⟩
  · exact .inr rfl

/-- R150: JT and JF leave `STATUS` and `FAULT` or take one fault. -/
theorem jumpIf_quietOrFaulted {i : Instr} {taken : Word → Bool} (h : jumpIf i taken a b s = .next t) :
    QuietOrFaulted s t := by
  obtain ⟨x, y, addr, -, -, -, -, rfl⟩ | ⟨x, y, -, -, -, rfl⟩ | ⟨e, rfl, -⟩ := jumpIf_cases h
  · exact .inl ⟨rfl, rfl⟩
  · exact .inl ⟨rfl, rfl⟩
  · exact .inr rfl

/-- R141: OUT leaves `STATUS` and `FAULT` or takes one fault. -/
theorem execOut_quietOrFaulted (h : execOut a s = .next t) : QuietOrFaulted s t := by
  obtain ⟨v, -, rfl⟩ | ⟨e, -, rfl⟩ := execOut_cases h
  · exact .inl ⟨rfl, rfl⟩
  · exact .inr rfl

/-- R160: ARB leaves `STATUS` and `FAULT` or takes one fault. -/
theorem execArb_quietOrFaulted (h : execArb a s = .next t) : QuietOrFaulted s t := by
  obtain ⟨v, r, -, -, rfl⟩ | ⟨e, rfl, -⟩ := execArb_cases h
  · exact .inl ⟨rfl, rfl⟩
  · exact .inr rfl

/-- R140: IN with a value queued leaves `STATUS` and `FAULT` or takes one fault; on an empty queue it pauses. -/
theorem execIn_pause_or_quietOrFaulted (h : execIn d s = .next t) : (s.inq = [] ∧ t = s.pause) ∨ QuietOrFaulted s t := by
  obtain hpause | ⟨v, rest, addr, -, -, rfl⟩ | ⟨v, rest, e, -, -, rfl⟩ := execIn_cases h
  · exact .inl hpause
  · exact .inr (.inl ⟨rfl, rfl⟩)
  · exact .inr (.inr rfl)

/-- Table 46-A: everything an instruction can do to `STATUS` and `FAULT`. -/
theorem exec_ends {i : Instr} (h : exec i s = .next t) :
    QuietOrFaulted s t ∨ (i = .hlt ∧ t = s.halt) ∨ (s.inq = [] ∧ t = s.pause ∧ ∃ d, i = .inp d) := by
  cases i with
  | add a b d => exact .inl (binaryOp_quietOrFaulted h)
  | mul a b d => exact .inl (binaryOp_quietOrFaulted h)
  | lt a b d => exact .inl (binaryOp_quietOrFaulted h)
  | eq a b d => exact .inl (binaryOp_quietOrFaulted h)
  | out a => exact .inl (execOut_quietOrFaulted h)
  | jt c g => exact .inl (jumpIf_quietOrFaulted h)
  | jf c g => exact .inl (jumpIf_quietOrFaulted h)
  | arb a => exact .inl (execArb_quietOrFaulted h)
  | hlt => exact .inr (.inl ⟨rfl, execHlt_next.1 h⟩)
  | inp d =>
    obtain ⟨hq, ht⟩ | hquiet := execIn_pause_or_quietOrFaulted h
    · exact .inr (.inr ⟨hq, ht, d, rfl⟩)
    · exact .inl hquiet

/-- R201: leaving `STATUS` or faulting does not make a machine wait for input. -/
theorem status_ne_pendingInput_of_quietOrFaulted (h : QuietOrFaulted s t) (hs : s.status ≠ .pendingInput) :
    t.status ≠ .pendingInput := by
  obtain ⟨hstatus, -⟩ | hfault := h
  · exact hstatus ▸ hs
  · rw [hfault, State.takeFault_status]
    decide

/-- R140: an instruction that ends waiting for input is an IN on an empty queue, and it only pauses. -/
theorem exec_of_pendingInput {i : Instr} (h : exec i s = .next t) (hs : s.status ≠ .pendingInput)
    (ht : t.status = .pendingInput) : s.inq = [] ∧ t = s.pause ∧ ∃ d, i = .inp d := by
  obtain hquiet | ⟨-, rfl⟩ | hpause := exec_ends h
  · exact absurd ht (status_ne_pendingInput_of_quietOrFaulted hquiet hs)
  · cases ht
  · exact hpause

/-- R140, R173: a running step that ends waiting for input fetched an IN on an empty queue, and it only pauses. -/
theorem step_of_pendingInput (hs : s.status = .running) (h : step s = .next t) (ht : t.status = .pendingInput) :
    s.inq = [] ∧ t = s.pause ∧ ∃ d, fetch s = .ok (.inp d) := by
  obtain ⟨-, f, -, rfl⟩ | ⟨-, i, hfetch, hexec⟩ | ⟨hidle, -⟩ := step_cases h
  · cases ht
  · have hne : s.status ≠ .pendingInput := by simp [hs]
    obtain ⟨hq, hpause, d, rfl⟩ := exec_of_pendingInput hexec hne ht
    exact ⟨hq, hpause, d, hfetch⟩
  · exact absurd hs hidle

end Sys2Proof.Machine

open Sys2Proof.Machine

/-- Settles O43: the step is a pause, which writes `STATUS` only. -/
theorem pauseIsNotAFault : Obligations.PauseIsNotAFault := by
  intro s t hs hstep ht
  obtain ⟨hq, rfl, hfetch⟩ := step_of_pendingInput hs hstep ht
  exact ⟨s.pause_fault, rfl, hq, hfetch⟩
end

