-- ==== Sys2Proof/Proofs/DecodeFaults.lean ====
section
/-! PROOFS. When an instruction word fails to decode, and with which fault: the opcode field, then the mode digits, then the
reserved digits, then the destination's mode (spec/30_encoding.md R87 to R92). -/

namespace Sys2Proof

open Claims (HasOpcode digitOf)

variable {w v : Word} {op : Opcode}

/-- Table 30-C: an opcode value belongs to the operation that has it, and to no other. -/
theorem Opcode.ofCode?_eq_some {c : Nat} : Opcode.ofCode? c = some op ↔ op.code = c := by
  constructor
  · intro h
    simpa using List.find?_some h
  · rintro rfl
    cases op <;> rfl

/-- R87: the opcode values that name an operation, written out. -/
theorem Opcode.ofCode?_eq_none {c : Nat} :
    Opcode.ofCode? c = none ↔ (c : Int) ∉ ([1, 2, 3, 4, 5, 6, 7, 8, 9, 99] : List Int) := by
  simp [Opcode.ofCode?, Opcode.code, eq_comm (b := c)]
  omega

theorem Opcode.code_mem (op : Opcode) : (op.code : Int) ∈ ([1, 2, 3, 4, 5, 6, 7, 8, 9, 99] : List Int) := by
  cases op <;> decide

/-- R6: the value of a word that is not negative is its unsigned reading. -/
theorem toInt_eq_toNat_of_nonneg (h : 0 ≤ w.toInt) : w.toInt = w.toNat :=
  BitVec.toInt_eq_toNat_of_lt (BitVec.toInt_pos_iff.1 h)

/-- R80: the opcode field of a word, read as a natural number. -/
theorem hasOpcode_iff : HasOpcode w op ↔ 0 ≤ w.toInt ∧ w.toNat % 100 = op.code := by
  refine and_congr_right fun h => ?_
  rw [toInt_eq_toNat_of_nonneg h]
  omega

/-- R80: a mode digit of a word that is not negative, read as a natural number. -/
theorem digitOf_eq_dig (h : 0 ≤ w.toInt) (k : Nat) : digitOf w k = dig w.toNat (k + 2) := by
  simp [digitOf, dig, toInt_eq_toNat_of_nonneg h]

/-- R80, R92: the three mode digits of a word. -/
def modeDigits (w : Word) : List Nat := [dig w.toNat 2, dig w.toNat 3, dig w.toNat 4]

/-- R92: a word with a legal opcode field decodes as its digits pass the checks. -/
theorem decodeWord_of_hasOpcode (h : HasOpcode w op) :
    decodeWord w = checkDigits w op (modeDigits w) (w.toNat / 100000) := by
  obtain ⟨hnonneg, hcode⟩ := hasOpcode_iff.1 h
  simp [decodeWord, not_lt.2 hnonneg, Opcode.ofCode?_eq_some.2 hcode.symm, modeDigits]

/-- D7: the remainder of a negative number truncated toward zero. -/
theorem tmod_hundred_of_neg {z : Int} (h : z < 0) : z.tmod 100 = -((-z) % 100) := by
  rw [← Int.tmod_eq_emod_of_nonneg (by omega), Int.neg_tmod, neg_neg]

/-- R87, R90, R92: a word is negative, has an illegal opcode field, or has the opcode field of an operation. -/
theorem decodeWord_cases (w : Word) :
    (w.toInt < 0 ∧ decodeWord w = .error (.unknownOpcode (-((-w.toInt) % 100)))) ∨
    (0 ≤ w.toInt ∧ w.toInt % 100 ∉ ([1, 2, 3, 4, 5, 6, 7, 8, 9, 99] : List Int) ∧
      decodeWord w = .error (.unknownOpcode (w.toInt % 100))) ∨
    ∃ op, HasOpcode w op := by
  by_cases hneg : w.toInt < 0
  · exact .inl ⟨hneg, by simp [decodeWord, hneg, tmod_hundred_of_neg hneg]⟩
  · have hnonneg : 0 ≤ w.toInt := not_lt.1 hneg
    have hfield : w.toInt % 100 = (w.toNat % 100 : Nat) := by rw [toInt_eq_toNat_of_nonneg hnonneg]; rfl
    cases hop : Opcode.ofCode? (w.toNat % 100) with
    | none => exact .inr (.inl ⟨hnonneg, hfield ▸ Opcode.ofCode?_eq_none.1 hop, by simp [decodeWord, hneg, hop, hfield]⟩)
    | some op => exact .inr (.inr ⟨op, hasOpcode_iff.2 ⟨hnonneg, (Opcode.ofCode?_eq_some.1 hop).symm⟩⟩)

/-- R92: a word that decodes has the opcode field of the operation in its header, and its digits pass the checks. -/
theorem decodeWord_ok {h : Header} : decodeWord w = .ok h ↔
    HasOpcode w h.op ∧ checkDigits w h.op (modeDigits w) (w.toNat / 100000) = .ok h := by
  constructor
  · intro hw
    obtain ⟨-, herror⟩ | ⟨-, -, herror⟩ | ⟨op, hop⟩ := decodeWord_cases w
    · cases herror.symm.trans hw
    · cases herror.symm.trans hw
    · rw [decodeWord_of_hasOpcode hop] at hw
      obtain ⟨-, -, -, hheader⟩ := checkDigits_ok.1 hw
      obtain rfl : h.op = op := by rw [hheader]
      exact ⟨hop, hw⟩
  · rintro ⟨hop, hchecks⟩
    rw [decodeWord_of_hasOpcode hop, hchecks]

/-- R92: only a word with a legal opcode field is refused for its other digits. -/
theorem hasOpcode_of_decodeWord_error {f : DecodeFault} (hw : decodeWord w = .error f) (hf : ∀ c, f ≠ .unknownOpcode c) :
    ∃ op, HasOpcode w op := by
  obtain ⟨-, herror⟩ | ⟨-, -, herror⟩ | hop := decodeWord_cases w
  · cases herror.symm.trans hw
    exact absurd rfl (hf _)
  · cases herror.symm.trans hw
    exact absurd rfl (hf _)
  · exact hop

/-! ## The checks after the opcode -/

variable {ds : List Nat} {hi : Nat}

/-- R92: a mode digit above 2 of an operand that exists is reported whatever follows. -/
theorem checkDigits_of_find_some {d : Nat} (h : (ds.take op.operandCount).find? (2 < ·) = some d) :
    checkDigits w op ds hi = .error (.unknownParameterMode d) := by
  simp [checkDigits, h]

/-- R92: with legal mode digits, the reserved digits are checked and then the destination's mode. -/
theorem checkDigits_of_find_none (h : (ds.take op.operandCount).find? (2 < ·) = none) :
    checkDigits w op ds hi =
      if (∀ d ∈ ds.drop op.operandCount, d = 0) ∧ hi = 0 then
        if ∃ k ∈ op.destOperand?, ds.getD (k - 1) 0 = 1 then .error (.immediateDestination w)
        else .ok ⟨op, .ofDigit (ds.getD 0 0), .ofDigit (ds.getD 1 0), .ofDigit (ds.getD 2 0)⟩
      else .error (.reservedEncoding w) := by
  have hreserved : ((ds.drop op.operandCount).any (· != 0) || hi != 0) = true ↔
      ¬ ((∀ d ∈ ds.drop op.operandCount, d = 0) ∧ hi = 0) := by
    simp [imp_iff_not_or]
  have hdest : op.destOperand?.any (fun k => ds.getD (k - 1) 0 == 1) = true ↔
      ∃ k ∈ op.destOperand?, ds.getD (k - 1) 0 = 1 := by
    cases op.destOperand? <;> simp
  simp only [checkDigits, h, hreserved, hdest, ite_not]

/-- R88: no mode digit of an existing operand is above 2. -/
theorem find?_modes_eq_none : (ds.take op.operandCount).find? (2 < ·) = none ↔ ∀ d ∈ ds.take op.operandCount, d ≤ 2 := by
  simp

theorem checkDigits_unknownParameterMode {d : Nat} :
    checkDigits w op ds hi = .error (.unknownParameterMode d) ↔ (ds.take op.operandCount).find? (2 < ·) = some d := by
  cases hfind : (ds.take op.operandCount).find? (2 < ·) with
  | some d' => simp [checkDigits_of_find_some hfind]
  | none =>
    rw [checkDigits_of_find_none hfind]
    split_ifs <;> simp

theorem checkDigits_reservedEncoding : checkDigits w op ds hi = .error (.reservedEncoding v) ↔
    v = w ∧ (∀ d ∈ ds.take op.operandCount, d ≤ 2) ∧ ¬ ((∀ d ∈ ds.drop op.operandCount, d = 0) ∧ hi = 0) := by
  rw [← find?_modes_eq_none]
  cases hfind : (ds.take op.operandCount).find? (2 < ·) with
  | some d => simp [checkDigits_of_find_some hfind]
  | none =>
    rw [checkDigits_of_find_none hfind]
    split_ifs with hzeros <;> simp only [iff_true_intro hzeros, reduceCtorEq, Except.error.injEq,
      DecodeFault.reservedEncoding.injEq, eq_comm (a := v), not_true, and_false, and_true]

theorem checkDigits_immediateDestination : checkDigits w op ds hi = .error (.immediateDestination v) ↔
    v = w ∧ (∀ d ∈ ds.take op.operandCount, d ≤ 2) ∧ ((∀ d ∈ ds.drop op.operandCount, d = 0) ∧ hi = 0) ∧
      ∃ k ∈ op.destOperand?, ds.getD (k - 1) 0 = 1 := by
  rw [← find?_modes_eq_none]
  cases hfind : (ds.take op.operandCount).find? (2 < ·) with
  | some d => simp [checkDigits_of_find_some hfind]
  | none =>
    rw [checkDigits_of_find_none hfind]
    split_ifs with hzeros hdest
    · simp only [iff_true_intro hzeros, iff_true_intro hdest, Except.error.injEq,
        DecodeFault.immediateDestination.injEq, eq_comm (a := v), and_true]
    · simp only [iff_false_intro hdest, and_false]
    · simp only [iff_false_intro hzeros, Except.error.injEq, reduceCtorEq, false_and, and_false]

/-! ## The digits of a word, said with the word's value -/

theorem take_modeDigits (w : Word) (op : Opcode) :
    (modeDigits w).take op.operandCount = (List.range op.operandCount).map fun k => dig w.toNat (k + 2) := by
  cases op <;> rfl

/-- R88: the mode digits of the existing operands are legal. -/
theorem modeDigits_le_two (h : 0 ≤ w.toInt) (op : Opcode) :
    (∀ d ∈ (modeDigits w).take op.operandCount, d ≤ 2) ↔ ∀ j, j < op.operandCount → digitOf w j ≤ 2 := by
  simp [take_modeDigits, digitOf_eq_dig h]

/-- R89: no digit above those of the existing operands is set exactly when the word is small. -/
theorem reserved_digits_zero (h : 0 ≤ w.toInt) (op : Opcode) :
    ((∀ d ∈ (modeDigits w).drop op.operandCount, d = 0) ∧ w.toNat / 100000 = 0) ↔
      w.toInt < 10 ^ (op.operandCount + 2) := by
  rw [toInt_eq_toNat_of_nonneg h]
  cases op <;> simp [modeDigits, dig, Opcode.operandCount] <;> omega

/-- R83, R91: the operations with a destination, and the digit of its mode, which is that of the last operand. -/
theorem destination_digit (h : 0 ≤ w.toInt) (op : Opcode) :
    (∃ k ∈ op.destOperand?, (modeDigits w).getD (k - 1) 0 = 1) ↔
      op ∈ [Opcode.add, .mul, .lt, .eq, .inp] ∧ digitOf w (op.operandCount - 1) = 1 := by
  rw [digitOf_eq_dig h]
  cases op <;> simp [modeDigits, Opcode.destOperand?, Opcode.operandCount]

/-- R92: the checks after the opcode raise no `UnknownOpcode`. -/
theorem checkDigits_ne_unknownOpcode (c : Int) : checkDigits w op ds hi ≠ .error (.unknownOpcode c) := by
  cases hfind : (ds.take op.operandCount).find? (2 < ·) with
  | some d => simp [checkDigits_of_find_some hfind]
  | none =>
    rw [checkDigits_of_find_none hfind]
    split_ifs <;> simp

end Sys2Proof

open Sys2Proof Sys2Proof.Claims

/-- Settles O7: a negative word is refused at once, then a word whose opcode field is in no row of Table 30-C. -/
theorem unknownOpcodeExactlyWhen : Obligations.UnknownOpcodeExactlyWhen := by
  intro w c
  obtain ⟨hneg, hw⟩ | ⟨hnonneg, hillegal, hw⟩ | ⟨op, hop⟩ := decodeWord_cases w
  · simp [hw, hneg, not_le.2 hneg, eq_comm]
  · simp only [hw, not_lt.2 hnonneg, hnonneg, false_and, false_or, true_and, Except.error.injEq,
      DecodeFault.unknownOpcode.injEq, eq_comm (b := c)]
    exact ⟨fun h => ⟨h, h ▸ hillegal⟩, And.left⟩
  · rw [decodeWord_of_hasOpcode hop]
    refine iff_of_false (checkDigits_ne_unknownOpcode c) ?_
    rintro (⟨hneg, -⟩ | ⟨-, rfl, hillegal⟩)
    · exact not_lt.2 hop.1 hneg
    · exact hillegal (hop.2 ▸ op.code_mem)

/-- Settles O8: the first mode digit above 2 among those of the operands. -/
theorem unknownParameterModeExactlyWhen : Obligations.UnknownParameterModeExactlyWhen := by
  intro w op d hop
  rw [decodeWord_of_hasOpcode hop, checkDigits_unknownParameterMode, take_modeDigits, List.find?_eq_some_iff_getElem]
  simp only [digitOf_eq_dig hop.1, List.getElem_map, List.getElem_range, List.length_map, List.length_range]
  constructor
  · rintro ⟨hd, k, hk, rfl, hbelow⟩
    exact ⟨k, hk, rfl, by simpa using hd, fun j hj => by simpa using hbelow j hj⟩
  · rintro ⟨k, hk, hdk, hd, hbelow⟩
    exact ⟨by simpa using hd, k, hk, by exact_mod_cast hdk, fun j hj => by simpa using hbelow j hj⟩

/-- Settles O9: with legal mode digits, a set digit above them makes the word at least the power of ten of the first of them. -/
theorem reservedEncodingExactlyWhen : Obligations.ReservedEncodingExactlyWhen := by
  intro w v op hop
  rw [decodeWord_of_hasOpcode hop, checkDigits_reservedEncoding, modeDigits_le_two hop.1, reserved_digits_zero hop.1, not_lt]

/-- Settles O10: the last of the checks of R92 is on the digit of the destination's mode. -/
theorem immediateDestinationExactlyWhen : Obligations.ImmediateDestinationExactlyWhen := by
  intro w v op hop
  rw [decodeWord_of_hasOpcode hop, checkDigits_immediateDestination, modeDigits_le_two hop.1, reserved_digits_zero hop.1,
    destination_digit hop.1]
end

