-- ==== Sys2Proof/Proofs/RoundTrip.lean ====
section
/-! PROOFS. Decoding and encoding are inverse to each other (spec/30_encoding.md sections 1 to 4): an instruction word has the
digits of its operation and modes, and a word that decodes is rebuilt from its digits. -/

namespace Sys2Proof

open Claims (HasOpcode tableFirst tableSecond)

variable {w : Word} {h : Header}

/-- R82: a mode is the one its digit stands for. -/
@[simp] theorem Mode.ofDigit_digit (m : Mode) : Mode.ofDigit m.digit = m := by
  cases m <;> rfl

/-- R82: a legal mode digit is the one of the mode it stands for. -/
theorem Mode.digit_ofDigit {d : Nat} (hd : d ≤ 2) : (Mode.ofDigit d).digit = d := by
  interval_cases d <;> rfl

/-! ## From the instruction to its word and back -/

/-- R92, R94: the header of the word that encodes `i`. -/
def Instr.header (i : Instr) : Header :=
  ⟨i.opcode, .ofDigit (modeDigit i.args 0), .ofDigit (modeDigit i.args 1), .ofDigit (modeDigit i.args 2)⟩

/-- R113: an instruction is rebuilt from its header and its operand words. -/
theorem Instr.header_instr (i : Instr) : i.header.instr (i.args.map Arg.word) = i := by
  cases i <;> simp [Instr.header, Header.instr, Instr.opcode, Instr.args, modeDigit]

/-- R94: an instruction word has at most five decimal digits. -/
theorem Instr.headNat_lt (i : Instr) : i.headNat < 100000 := by
  obtain ⟨-, -, -, -, hhigh⟩ := Laws.headNat_digits i
  omega

@[simp] theorem Instr.toNat_head (i : Instr) : i.head.toNat = i.headNat := by
  have := i.headNat_lt
  rw [Instr.head, BitVec.toNat_ofNat, Nat.mod_eq_of_lt (by omega)]

@[simp] theorem Instr.toInt_head (i : Instr) : i.head.toInt = i.headNat := by
  have := i.headNat_lt
  rw [BitVec.toInt_eq_toNat_of_lt (by rw [toNat_head]; omega), toNat_head]

theorem Instr.hasOpcode_head (i : Instr) : HasOpcode i.head i.opcode := by
  refine hasOpcode_iff.2 ⟨?_, ?_⟩
  · simp
  · rw [toNat_head, (Laws.headNat_digits i).1]

theorem Instr.modeDigits_head (i : Instr) : modeDigits i.head = [modeDigit i.args 0, modeDigit i.args 1, modeDigit i.args 2] := by
  obtain ⟨-, h2, h3, h4, -⟩ := Laws.headNat_digits i
  rw [modeDigits, toNat_head, h2, h3, h4]

/-- R82: only the immediate mode has the digit 1. -/
theorem Mode.digit_eq_one {m : Mode} : m.digit = 1 ↔ m = .immediate := by
  cases m <;> simp [Mode.digit]

/-- R83: the mode digit of a destination is not that of the immediate mode. -/
theorem Instr.WellFormed.modeDigit_ne_one {i : Instr} (hi : i.WellFormed) {k : Nat} (hk : k ∈ i.opcode.destOperand?) :
    modeDigit i.args (k - 1) ≠ 1 := by
  cases i <;> cases hk <;> exact fun h => hi _ rfl (Mode.digit_eq_one.1 h)

/-- R86, R94: the word of a well-formed instruction decodes to its operation and modes. -/
theorem decodeWord_head {i : Instr} (hi : i.WellFormed) : decodeWord i.head = .ok i.header := by
  obtain ⟨-, -, -, -, hhigh⟩ := Laws.headNat_digits i
  refine decodeWord_ok.2 ⟨i.hasOpcode_head, ?_⟩
  rw [i.modeDigits_head, i.toNat_head, hhigh]
  refine checkDigits_ok.2 ⟨fun d hd => ?_, ⟨?_, rfl⟩, fun k hk => ?_, rfl⟩
  · have hd' := List.mem_of_mem_take hd
    simp only [List.mem_cons, List.not_mem_nil, or_false] at hd'
    obtain rfl | rfl | rfl := hd' <;> exact Laws.modeDigit_le _ _
  · cases i <;> simp [Instr.header, Instr.opcode, Opcode.operandCount, Instr.args, modeDigit]
  · have hdigit := hi.modeDigit_ne_one hk
    cases i <;> cases hk <;> exact hdigit

/-! ## From the word to its instruction and back -/

/-- R80: a number is put together from its opcode field, its mode digits and what is above them. -/
theorem eq_sum_of_digits (n : Nat) :
    n = 100000 * (n / 100000) + 10000 * dig n 4 + 1000 * dig n 3 + 100 * dig n 2 + n % 100 := by
  unfold dig
  omega

/-- R113: the operand words of an instruction put together from a header are those it was given. -/
theorem Header.map_word_args_instr {ps : List Word} (hlen : ps.length = h.op.operandCount) :
    (h.instr ps).args.map Arg.word = ps := by
  have hwords : (h.instr ps).args.map Arg.word = (List.range ps.length).map (ps.getD · 0) := by
    obtain ⟨op, m1, m2, m3⟩ := h
    rw [hlen]
    cases op <;> rfl
  rw [hwords]
  exact List.ext_getElem (by simp) fun k hk hk' => by simp [hk']

/-- R89, R113: the mode digits of an instruction put together from a header are those of the header's modes, as many as the
operation has operands, and 0 above them. -/
theorem modeDigit_header_instr (h : Header) (ps : List Word) :
    [modeDigit (h.instr ps).args 0, modeDigit (h.instr ps).args 1, modeDigit (h.instr ps).args 2] =
      ([h.m1, h.m2, h.m3].map Mode.digit).take h.op.operandCount ++ List.replicate (3 - h.op.operandCount) 0 := by
  obtain ⟨op, m1, m2, m3⟩ := h
  cases op <;> rfl

/-- R84, R89: the mode digits of an instruction put together from a legal word are those of the word. -/
theorem modeDigit_instr (hw : decodeWord w = .ok h) (ps : List Word) :
    [modeDigit (h.instr ps).args 0, modeDigit (h.instr ps).args 1, modeDigit (h.instr ps).args 2] = modeDigits w := by
  obtain ⟨-, hchecks⟩ := decodeWord_ok.1 hw
  obtain ⟨hmodes, ⟨hzeros, -⟩, -, hheader⟩ := checkDigits_ok.1 hchecks
  have hmap : [h.m1, h.m2, h.m3].map Mode.digit = (modeDigits w).map fun d => (Mode.ofDigit d).digit := by
    rw [hheader]; rfl
  have hlow : ([h.m1, h.m2, h.m3].map Mode.digit).take h.op.operandCount = (modeDigits w).take h.op.operandCount := by
    rw [hmap, ← List.map_take]
    exact (List.map_congr_left fun d hd => Mode.digit_ofDigit (hmodes d hd)).trans (List.map_id _)
  have hhigh : (modeDigits w).drop h.op.operandCount = List.replicate (3 - h.op.operandCount) 0 :=
    List.eq_replicate_iff.2 ⟨by simp [modeDigits], hzeros⟩
  rw [modeDigit_header_instr, hlow, ← hhigh, List.take_append_drop]

/-- R86, R94: a word that decodes is the instruction word of the instruction it starts, whatever the operand words. -/
theorem head_of_decodeWord (hw : decodeWord w = .ok h) (ps : List Word) : (h.instr ps).head = w := by
  obtain ⟨hop, hchecks⟩ := decodeWord_ok.1 hw
  obtain ⟨-, ⟨-, hhigh⟩, -⟩ := checkDigits_ok.1 hchecks
  have hcode := (hasOpcode_iff.1 hop).2
  have hdigits := modeDigit_instr hw ps
  simp only [modeDigits, List.cons.injEq, and_true] at hdigits
  obtain ⟨h0, h1, h2⟩ := hdigits
  apply BitVec.eq_of_toNat_eq
  rw [Instr.toNat_head, Instr.headNat, h0, h1, h2, Header.opcode_instr, ← hcode]
  have := eq_sum_of_digits w.toNat
  omega

/-- R84: a list of cells that decodes starts with a legal word, followed by its operand words. -/
theorem decode_ok {cells rest : List Word} {i : Instr} (hd : decode cells = .ok (i, rest)) :
    ∃ w h ps, decodeWord w = .ok h ∧ ps.length = h.op.operandCount ∧ cells = w :: (ps ++ rest) ∧ i = h.instr ps := by
  unfold decode at hd
  split at hd
  case h_1 => cases hd
  case h_2 w cells =>
    split at hd
    case h_1 => cases hd
    case h_2 h hw =>
      split at hd
      case isTrue => cases hd
      case isFalse hlen =>
        cases hd
        exact ⟨w, h, _, hw, by simp [not_lt.1 hlen], by rw [List.take_append_drop], rfl⟩

/-! ## The words that decode -/

/-- Table 30-D against Table 30-C: the digits of a legal word give a row of the table. -/
theorem legal_digits_mem_table (op : Opcode) : ∀ d1 d2 d3 : Fin 3,
    (checkDigits 0 op [d1, d2, d3] 0).isOk = true →
    ((10000 * d3 + 1000 * d2 + 100 * d1 + op.code : Nat) : Int) ∈ tableFirst ++ tableSecond := by
  cases op <;> decide

theorem toInt_mem_table_of_decodeWord (hw : decodeWord w = .ok h) : w.toInt ∈ tableFirst ++ tableSecond := by
  obtain ⟨hop, hchecks⟩ := decodeWord_ok.1 hw
  obtain ⟨hmodes, ⟨hzeros, hhigh⟩, -⟩ := checkDigits_ok.1 hchecks
  have hcode := (hasOpcode_iff.1 hop).2
  have hle : ∀ d ∈ modeDigits w, d < 3 := fun d hd => by
    rw [← List.take_append_drop h.op.operandCount (modeDigits w), List.mem_append] at hd
    obtain hd | hd := hd
    · exact Nat.lt_succ_of_le (hmodes d hd)
    · rw [hzeros d hd]; decide
  simp only [modeDigits, List.forall_mem_cons] at hle
  obtain ⟨h1, h2, h3, -⟩ := hle
  have hok : checkDigits 0 h.op (modeDigits w) 0 = .ok h := by
    rw [hhigh] at hchecks
    exact checkDigits_ok.2 (checkDigits_ok.1 hchecks)
  have hsum : 10000 * dig w.toNat 4 + 1000 * dig w.toNat 3 + 100 * dig w.toNat 2 + h.op.code = w.toNat := by
    have := eq_sum_of_digits w.toNat
    omega
  rw [toInt_eq_toNat_of_nonneg hop.1, ← hsum]
  exact legal_digits_mem_table h.op ⟨_, h1⟩ ⟨_, h2⟩ ⟨_, h3⟩ (congrArg Except.isOk hok)

theorem table_decodes : ∀ z ∈ tableFirst ++ tableSecond, (decodeWord (Word.ofInt z)).isOk = true := by
  decide

end Sys2Proof

open Sys2Proof Sys2Proof.Claims

/-- Settles O4: the instruction word decodes to the operation and modes, and these with the operand words give the
instruction. -/
theorem decodeOfEncode : Obligations.DecodeOfEncode := by
  intro i rest hi
  have hcount : i.header.op.operandCount = (i.args.map Arg.word).length := by simp [Instr.header]
  rw [encode, List.cons_append, decode_cons_of_header (decodeWord_head hi) (by simp [hcount]), hcount, List.take_left,
    List.drop_left, i.header_instr]

/-- Settles O5: the word of the instruction read is the first cell, and its operand words are the cells after it. -/
theorem encodeOfDecode : Obligations.EncodeOfDecode := by
  intro cells rest i hd
  obtain ⟨w, h, ps, hw, hlen, rfl, rfl⟩ := decode_ok hd
  refine ⟨wellFormed_of_decodeWord hw ps, ?_⟩
  rw [encode, head_of_decodeWord hw, Header.map_word_args_instr hlen, List.cons_append]

/-- Settles O6: a legal word is the sum of its legal digits, and each word of the table is decoded. -/
theorem legalWordsAreTable30D : Obligations.LegalWordsAreTable30D := by
  refine ⟨by decide, by decide, fun w => ⟨fun ⟨h, hw⟩ => toInt_mem_table_of_decodeWord hw, fun hmem => ?_⟩⟩
  have hok := table_decodes _ hmem
  rw [Word.ofInt, BitVec.ofInt_toInt] at hok
  cases hw : decodeWord w with
  | ok h => exact ⟨h, rfl⟩
  | error f => simp [hw, Except.isOk, Except.toBool] at hok

/-- Settles O11: each decode is one evaluation of the decoder. -/
theorem workedWordsDecode : Obligations.WorkedWordsDecode := by
  unfold Obligations.WorkedWordsDecode
  and_intros <;> rfl

/-- Settles O17: the cell at `pc` is the word that was decoded. -/
theorem decodedWordIsTheHead : Obligations.DecodedWordIsTheHead := by
  intro s i hfetch
  obtain ⟨-, h, hw, ps, -, rfl⟩ := Machine.fetch_ok.1 hfetch
  exact ⟨head_of_decodeWord hw ps, wellFormed_of_decodeWord hw ps⟩
end

