-- ==== Sys2Proof/Proofs/FetchFaults.lean ====
section
/-! PROOFS. The step outside a run cycle, and what fetch, decode and operand fetch answer at every `pc`
(spec/40_step_fetch_decode_resolve.md R110 to R114). -/

namespace Sys2Proof.Machine

variable {s : State} {m : Memory} {f : FaultRecord} {pc k n : Nat}

/-- R170, R214: while no run cycle is in progress a step is idle. -/
theorem step_idle (hs : s.status ≠ .running) : step s = .next s := by
  unfold step
  split
  case h_1 hrunning => exact absurd hrunning hs
  all_goals rfl

/-- R201: a fault of the phases before execute is taken. -/
theorem step_of_fetch_error (hs : s.status = .running) (hfetch : fetch s = .error f) : step s = .next (s.takeFault f) := by
  simp [step, hs, hfetch, raise]

/-! ## The cells of an instruction -/

theorem Memory.cells_succ (m : Memory) (a k : Nat) : m.cells a (k + 1) = m.read a :: m.cells (a + 1) k := by
  simp [Memory.cells, List.range_succ_eq_map, Nat.add_right_comm a 1, Nat.add_assoc]

theorem Memory.take_cells (m : Memory) (a : Nat) {j k : Nat} (hjk : j ≤ k) : (m.cells a k).take j = m.cells a j := by
  simp [Memory.cells, ← List.map_take, List.take_range, hjk]

/-- R114: operand fetch below the top of memory reads the cells from `pc + k` up. -/
theorem fetchOperands_of_fits (hfit : pc + k + n ≤ Config.addrMax + 1) :
    fetchOperands m pc k n = .ok (m.cells (pc + k) n) := by
  induction n generalizing k with
  | zero => rfl
  | succ n ih =>
    rw [fetchOperands, if_neg (by omega), ih (by omega), Memory.cells_succ, Nat.add_assoc]

/-- R114: operand fetch that starts at or below the top of memory and passes it faults at the first cell above. -/
theorem fetchOperands_of_passes (hk : pc + k ≤ Config.addrMax + 1) (hpasses : Config.addrMax + 1 < pc + k + n) :
    fetchOperands m pc k n = .error (addressRange (Config.addrMax + 1 : Nat)) := by
  induction n generalizing k with
  | zero => omega
  | succ n ih =>
    rw [fetchOperands]
    split
    case isTrue habove => rw [show pc + k = Config.addrMax + 1 by omega]
    case isFalse hbelow => rw [ih (by omega) (by omega)]

/-! ## Fetch -/

/-- R111: a fetch above the top of memory faults with `pc`. -/
theorem fetch_of_pc_above (hpc : Config.addrMax < s.pc.toNat) : fetch s = .error (addressRange s.pc.toNat) :=
  if_pos hpc

/-- R112: a word that does not decode faults as the decoder says. -/
theorem fetch_of_decodeWord_error {g : DecodeFault} (hpc : s.pc.toNat ≤ Config.addrMax)
    (hw : decodeWord (s.mem.read s.pc.toNat) = .error g) : fetch s = .error (decodeRecord g) := by
  rw [fetch, if_neg (not_lt.2 hpc), hw]

/-- R113, R114: a word that decodes is fetched with the operand words after it when they fit. -/
theorem fetch_of_fits {h : Header} (hw : decodeWord (s.mem.read s.pc.toNat) = .ok h)
    (hfit : s.pc.toNat + 1 + h.op.operandCount ≤ Config.addrMax + 1) :
    fetch s = .ok (h.instr (s.mem.cells (s.pc.toNat + 1) h.op.operandCount)) :=
  fetch_ok.2 ⟨by omega, h, hw, _, fetchOperands_of_fits hfit, rfl⟩

/-- R114, D13: a word that decodes but whose operands pass the top of memory faults at the first cell above it. -/
theorem fetch_of_passes {h : Header} (hpc : s.pc.toNat ≤ Config.addrMax)
    (hw : decodeWord (s.mem.read s.pc.toNat) = .ok h) (hpasses : Config.addrMax < s.pc.toNat + h.op.operandCount) :
    fetch s = .error (addressRange (Config.addrMax + 1 : Nat)) := by
  simp only [fetch, if_neg (not_lt.2 hpc), hw,
    fetchOperands_of_passes (m := s.mem) (pc := s.pc.toNat) (k := 1) (n := h.op.operandCount) (by omega) (by omega)]

/-- R111 to R114: every way a fetch faults. -/
theorem fetch_error (hfetch : fetch s = .error f) :
    f = addressRange s.pc.toNat ∨ (∃ g, decodeWord (s.mem.read s.pc.toNat) = .error g ∧ f = decodeRecord g) ∨
      f = addressRange (Config.addrMax + 1 : Nat) := by
  by_cases hpc : Config.addrMax < s.pc.toNat
  · rw [fetch_of_pc_above hpc] at hfetch
    cases hfetch
    exact .inl rfl
  · have hle := not_lt.1 hpc
    cases hw : decodeWord (s.mem.read s.pc.toNat) with
    | error g =>
      rw [fetch_of_decodeWord_error hle hw] at hfetch
      cases hfetch
      exact .inr (.inl ⟨g, rfl, rfl⟩)
    | ok h =>
      by_cases hpasses : Config.addrMax < s.pc.toNat + h.op.operandCount
      · rw [fetch_of_passes hle hw hpasses] at hfetch
        cases hfetch
        exact .inr (.inr rfl)
      · rw [fetch_of_fits hw (by omega)] at hfetch
        cases hfetch

/-- R110: an instruction decoded from the cells at `pc` that ends at or below the top of memory is the one fetched. -/
theorem fetch_of_decode {i : Instr} {rest : List Word} (hd : decode (s.mem.cells s.pc.toNat 4) = .ok (i, rest))
    (hfit : s.pc.toNat + i.arity ≤ Config.addrMax + 1) : fetch s = .ok i := by
  obtain ⟨w, h, ps, hw, hlen, hcells, rfl⟩ := decode_ok hd
  rw [Memory.cells_succ, List.cons.injEq] at hcells
  obtain ⟨rfl, htail⟩ := hcells
  have hcount : h.op.operandCount ≤ 3 := by cases h.op <;> decide
  have hps : s.mem.cells (s.pc.toNat + 1) h.op.operandCount = ps := by
    rw [← Memory.take_cells _ _ hcount, htail, ← hlen, List.take_left]
  rw [Instr.arity, Header.opcode_instr, Opcode.arity, ← Nat.add_assoc] at hfit
  rw [fetch_of_fits hw hfit, hps]

end Sys2Proof.Machine

open Sys2Proof Sys2Proof.Machine

/-- Settles O13: the fetch of the step finds that instruction. -/
theorem stepRunsDecodedInstruction : Obligations.StepRunsDecodedInstruction :=
  fun _ _ _ hs hd hfit => step_of_fetch hs (fetch_of_decode hd hfit)

/-- Settles O14: each fault of the fetch is taken by the step. -/
theorem fetchAndDecodeFaults : Obligations.FetchAndDecodeFaults := by
  refine fun s hs => ⟨fun hpc => ?_, fun hpc => ?_⟩
  · exact step_of_fetch_error hs (fetch_of_pc_above hpc)
  · have hdecode : ∀ g, decodeWord (s.mem.read s.pc.toNat) = .error g → step s = .next (s.takeFault (decodeRecord g)) :=
      fun g hw => step_of_fetch_error hs (fetch_of_decodeWord_error hpc hw)
    refine ⟨fun c hw => hdecode _ hw, fun d hw => hdecode _ hw, fun w hw => ⟨?_, ?_⟩, fun w hw => ⟨?_, ?_⟩, fun h hw hpasses => ?_⟩
    · exact Laws.decodeWord_error_word hw (.inl rfl)
    · exact hdecode _ hw
    · exact Laws.decodeWord_error_word hw (.inr rfl)
    · exact hdecode _ hw
    · exact step_of_fetch_error hs (fetch_of_passes hpc hw hpasses)

/-- Settles O15: `step` has an idle arm for every status but `Running`. -/
theorem idleWhenNotRunning : Obligations.IdleWhenNotRunning :=
  fun _ hs => step_idle hs
end

