-- ==== Sys2Proof/Proofs/Answers.lean ====
section
/-! PROOFS. What each meaning answers, read off its operands: the completions, the faults of its operands in their order and the
overflow (spec/41_arithmetic_compare.md to spec/45_halt.md, spec/60_exceptions.md section 2). -/

namespace Sys2Proof.Machine

variable {s : State} {a b d c g : Arg} {x y : Word} {ea : Int} {addr : Nat}

/-! ## Operands out of range -/

theorem readValue_of_outOfRange (h : OutOfRange s a ea) : readValue s a = .error (addressRange ea) :=
  readValue_error.2 ⟨ea, h, rfl⟩

theorem writeAddress_of_outOfRange {w : Word} (h : OutOfRange s d ea) : writeAddress s w d = .error (addressRange ea) :=
  writeAddress_error.2 (.inr ⟨ea, h, rfl⟩)

/-- R117, R118: a source operand reads or is out of range. -/
theorem reads_or_outOfRange (s : State) (a : Arg) : (∃ v, Reads s a v) ∨ ∃ ea, OutOfRange s a ea := by
  cases h : readValue s a with
  | ok v => exact .inl ⟨v, readValue_ok.1 h⟩
  | error f =>
    obtain ⟨ea, hout, -⟩ := readValue_error.1 h
    exact .inr ⟨ea, hout⟩

/-! ## ADD, MUL, LT, EQ -/

section Binary

variable {i : Instr} {f : Int → Int → Int}

/-- R130: the first source is resolved first. -/
theorem binaryOp_of_first_outOfRange (ha : OutOfRange s a ea) :
    binaryOp i f a b d s = .next (s.takeFault (addressRange ea)) := by
  simp [binaryOp, readValue_of_outOfRange ha, raise]

/-- R130: the second source is resolved after the first. -/
theorem binaryOp_of_second_outOfRange (hx : Reads s a x) (hb : OutOfRange s b ea) :
    binaryOp i f a b d s = .next (s.takeFault (addressRange ea)) := by
  simp [binaryOp, readValue_ok.2 hx, readValue_of_outOfRange hb, raise]

/-- R130: the destination is resolved after both sources and before the result. -/
theorem binaryOp_of_dest_outOfRange (hx : Reads s a x) (hy : Reads s b y) (hd : OutOfRange s d ea) :
    binaryOp i f a b d s = .next (s.takeFault (addressRange ea)) := by
  simp [binaryOp, readValue_ok.2 hx, readValue_ok.2 hy, writeAddress_of_outOfRange hd, raise]

/-- R135: with every operand good, a result that is no word faults. -/
theorem binaryOp_of_overflow (hx : Reads s a x) (hy : Reads s b y) (hd : Names s d addr)
    (hover : ¬ IsWord (f x.toInt y.toInt)) :
    binaryOp i f a b d s = .next (s.takeFault (arithmeticOverflow i.head)) := by
  simp [binaryOp, readValue_ok.2 hx, readValue_ok.2 hy, writeAddress_ok.2 hd, (narrow_none _).2 hover, raise]

/-- R130: every outcome is a next state. -/
theorem binaryOp_answers (i : Instr) (f : Int → Int → Int) (a b d : Arg) (s : State) : ∃ t, binaryOp i f a b d s = .next t := by
  unfold binaryOp raise
  repeat' split
  all_goals exact ⟨_, rfl⟩

end Binary

/-- R131 to R134: ADD, MUL, LT and EQ are the shared operation at some function. -/
theorem exec_eq_binaryOp {i : Instr} (hi : i ∈ [Instr.add a b d, .mul a b d, .lt a b d, .eq a b d]) :
    ∃ f, ∀ s, exec i s = binaryOp i f a b d s := by
  simp only [List.mem_cons, List.not_mem_nil, or_false] at hi
  obtain rfl | rfl | rfl | rfl := hi <;> exact ⟨_, fun _ => rfl⟩

/-! ## JT and JF -/

section Jump

variable {i : Instr} {taken : Word → Bool}

/-- R150: the condition is resolved first. -/
theorem jumpIf_of_cond_outOfRange (hc : OutOfRange s c ea) :
    jumpIf i taken c g s = .next (s.takeFault (addressRange ea)) := by
  simp [jumpIf, readValue_of_outOfRange hc, raise]

/-- R150: the target is resolved whether the jump is taken or not. -/
theorem jumpIf_of_target_outOfRange (hx : Reads s c x) (hg : OutOfRange s g ea) :
    jumpIf i taken c g s = .next (s.takeFault (addressRange ea)) := by
  simp [jumpIf, readValue_ok.2 hx, readValue_of_outOfRange hg, raise]

/-- R150, D12: a taken jump to a negative value faults with that value. -/
theorem jumpIf_of_negative_target (hx : Reads s c x) (hy : Reads s g y) (htaken : taken x = true) (hneg : y.toInt < 0) :
    jumpIf i taken c g s = .next (s.takeFault (addressRange y.toInt)) := by
  simp [jumpIf, readValue_ok.2 hx, readValue_ok.2 hy, htaken, (checkAddress_error _ _).2 ⟨rfl, .inl hneg⟩, raise]

/-- R150: every outcome is a next state. -/
theorem jumpIf_answers (i : Instr) (taken : Word → Bool) (c g : Arg) (s : State) : ∃ t, jumpIf i taken c g s = .next t := by
  unfold jumpIf raise
  repeat' split
  all_goals exact ⟨_, rfl⟩

end Jump

/-- R151, R152: JT and JF are the shared jump at some condition. -/
theorem exec_eq_jumpIf {i : Instr} (hi : i ∈ [Instr.jt c g, .jf c g]) : ∃ taken, ∀ s, exec i s = jumpIf i taken c g s := by
  simp only [List.mem_cons, List.not_mem_nil, or_false] at hi
  obtain rfl | rfl := hi <;> exact ⟨_, fun _ => rfl⟩

/-! ## IN, OUT and ARB -/

/-- R140, D27: the empty queue is looked at before the destination. -/
theorem execIn_of_empty (hq : s.inq = []) : execIn d s = .next s.pause := by
  simp [execIn, hq]

/-- R140: the head of the queue goes to the destination. -/
theorem execIn_of_names {v : Word} {rest : List Word} (hq : s.inq = v :: rest) (hd : Names s d addr) :
    execIn d s = .next (((s.setInq rest).store addr v).advance (Instr.inp d).arity) := by
  simp [execIn, hq, writeAddress_ok.2 hd]

/-- R140, D10: a destination out of range faults, and nothing is popped. -/
theorem execIn_of_outOfRange (hq : s.inq ≠ []) (hd : OutOfRange s d ea) :
    execIn d s = .next (s.takeFault (addressRange ea)) := by
  obtain ⟨v, rest, hq⟩ := List.exists_cons_of_ne_nil hq
  simp [execIn, hq, writeAddress_of_outOfRange hd, raise]

/-- R141: the value read is appended. -/
theorem execOut_of_reads (hx : Reads s a x) : execOut a s = .next ((s.emit x).advance (Instr.out a).arity) := by
  simp [execOut, readValue_ok.2 hx]

theorem execOut_of_outOfRange (ha : OutOfRange s a ea) : execOut a s = .next (s.takeFault (addressRange ea)) := by
  simp [execOut, readValue_of_outOfRange ha, raise]

/-- R160: the value read, with the old `rb`, is added to `rb`. -/
theorem execArb_of_reads (hx : Reads s a x) (hword : IsWord (s.rb.toInt + x.toInt)) :
    execArb a s = .next ((s.setRb (Word.ofInt (s.rb.toInt + x.toInt))).advance (Instr.arb a).arity) := by
  simp [execArb, readValue_ok.2 hx, (narrow_some _ _).2 ⟨hword, rfl⟩]

/-- R160, R135: a sum that is no word faults. -/
theorem execArb_of_overflow (hx : Reads s a x) (hover : ¬ IsWord (s.rb.toInt + x.toInt)) :
    execArb a s = .next (s.takeFault (arithmeticOverflow (Instr.arb a).head)) := by
  simp [execArb, readValue_ok.2 hx, (narrow_none _).2 hover, raise]

theorem execArb_of_outOfRange (ha : OutOfRange s a ea) : execArb a s = .next (s.takeFault (addressRange ea)) := by
  simp [execArb, readValue_of_outOfRange ha, raise]

theorem execIn_answers (d : Arg) (s : State) : ∃ t, execIn d s = .next t := by
  unfold execIn raise
  repeat' split
  all_goals exact ⟨_, rfl⟩

theorem execOut_answers (a : Arg) (s : State) : ∃ t, execOut a s = .next t := by
  unfold execOut raise
  split
  all_goals exact ⟨_, rfl⟩

theorem execArb_answers (a : Arg) (s : State) : ∃ t, execArb a s = .next t := by
  unfold execArb raise
  repeat' split
  all_goals exact ⟨_, rfl⟩

/-- R115: no instruction is refused. -/
theorem exec_answers (i : Instr) (s : State) : ∃ t, exec i s = .next t := by
  cases i with
  | add a b d => exact binaryOp_answers _ _ _ _ _ _
  | mul a b d => exact binaryOp_answers _ _ _ _ _ _
  | lt a b d => exact binaryOp_answers _ _ _ _ _ _
  | eq a b d => exact binaryOp_answers _ _ _ _ _ _
  | jt c g => exact jumpIf_answers _ _ _ _ _
  | jf c g => exact jumpIf_answers _ _ _ _ _
  | inp d => exact execIn_answers d s
  | out a => exact execOut_answers a s
  | arb a => exact execArb_answers a s
  | hlt => exact ⟨_, rfl⟩

/-- R110: no step is refused, in any state. -/
theorem step_answers (s : State) : ∃ t, step s = .next t := by
  by_cases hs : s.status = .running
  · cases hfetch : fetch s with
    | error f => exact ⟨_, step_of_fetch_error hs hfetch⟩
    | ok i => rw [step_of_fetch hs hfetch]; exact exec_answers i s
  · exact ⟨s, step_idle hs⟩

end Sys2Proof.Machine

open Sys2Proof Sys2Proof.Machine

/-- Settles O16: every branch of every meaning is a next state. -/
theorem nothingStopsTheModel : Obligations.NothingStopsTheModel :=
  ⟨step_answers, exec_answers⟩

/-- Settles O19: the two resolvers share the address sum and its range check. -/
theorem addressOutOfRangeFaults : Obligations.AddressOutOfRangeFaults := by
  intro s a w f hmode
  refine ⟨readValue_error, ?_⟩
  rw [writeAddress_error]
  exact or_iff_right fun ⟨himm, _⟩ => hmode himm

/-- Settles O21: ADD is the shared operation at the sum, and its arity is 4. -/
theorem addStoresTheSum : Obligations.AddStoresTheSum :=
  fun _ _ _ _ _ _ _ hx hy hd hword => binaryOp_of_reads hx hy hd hword

/-- Settles O22: MUL is the shared operation at the product, and its arity is 4. -/
theorem mulStoresTheProduct : Obligations.MulStoresTheProduct :=
  fun _ _ _ _ _ _ _ hx hy hd hword => binaryOp_of_reads hx hy hd hword

/-- Settles O25: the range test comes after the operands and before the write. -/
theorem overflowFaultsAndWritesNothing : Obligations.OverflowFaultsAndWritesNothing := by
  refine ⟨rfl, fun s a b d x y addr hx hy hd => ⟨fun hover => ?_, fun hover => ?_⟩, fun s a x hx hover => ?_⟩
  · exact binaryOp_of_overflow hx hy hd hover
  · exact binaryOp_of_overflow hx hy hd hover
  · exact execArb_of_overflow hx hover

/-- Settles O26: the arity of IN is 2. -/
theorem inTakesTheHeadOfTheQueue : Obligations.InTakesTheHeadOfTheQueue :=
  fun _ _ _ _ _ hq hd => execIn_of_names hq hd

/-- Settles O27: neither outcome pops the queue. -/
theorem inWaitsOrFaultsChangingNoInput : Obligations.InWaitsOrFaultsChangingNoInput :=
  fun _ _ => ⟨execIn_of_empty, fun _ hq hd => execIn_of_outOfRange hq hd⟩

/-- Settles O28: OUT answers as its operand resolves, and its arity is 2. -/
theorem outAppendsItsOperand : Obligations.OutAppendsItsOperand :=
  fun s a => ⟨fun _ hx => execOut_of_reads hx, fun _ ha => execOut_of_outOfRange ha, reads_or_outOfRange s a⟩

/-- Settles O31: the target value is checked once the jump is taken. -/
theorem takenJumpToNegativeTargetFaults : Obligations.TakenJumpToNegativeTargetFaults := by
  refine fun s c g x y hc hg hneg => ⟨fun hne => ?_, fun hzero => ?_⟩
  · exact jumpIf_of_negative_target hc hg (jumpsOnNonZero_iff.2 hne) hneg
  · exact jumpIf_of_negative_target hc hg (jumpsOnZero_iff.2 hzero) hneg

/-- Settles O32: the arity of ARB is 2. -/
theorem arbAddsToTheRelativeBase : Obligations.ArbAddsToTheRelativeBase :=
  fun _ _ _ hx hword => execArb_of_reads hx hword

/-- Settles O33: the meaning of HLT is `State.halt`. -/
theorem haltCompletesAndKeepsPc : Obligations.HaltCompletesAndKeepsPc :=
  fun _ => rfl

/-- Settles O34: each meaning resolves its operands in order, and looks at nothing else before. -/
theorem firstBadOperandIsReported : Obligations.FirstBadOperandIsReported := by
  refine ⟨fun s a b d ea i hi => ?_, fun s c g ea i hi => ?_, fun s a ea i hi ha => ?_⟩
  · obtain ⟨f, hexec⟩ := exec_eq_binaryOp hi
    rw [hexec]
    exact ⟨binaryOp_of_first_outOfRange, fun x hx => binaryOp_of_second_outOfRange hx,
      fun x y hx hy => binaryOp_of_dest_outOfRange hx hy⟩
  · obtain ⟨taken, hexec⟩ := exec_eq_jumpIf hi
    rw [hexec]
    exact ⟨jumpIf_of_cond_outOfRange, fun x hx => jumpIf_of_target_outOfRange hx⟩
  · simp only [List.mem_cons, List.not_mem_nil, or_false] at hi
    obtain rfl | rfl := hi
    · exact execArb_of_outOfRange ha
    · exact execOut_of_outOfRange ha
end

