-- ==== Sys2Proof/Proofs/CanonicalStore.lean ====
section
/-! PROOFS. A canonical store is determined by what it reads (spec/20_memory.md section 1): it lists exactly the cells that do
not read as 0, in the order of their addresses. -/

namespace Sys2Proof.Machine.Memory

variable {m n : Memory} {e : Nat × Word}

/-- R51: in a canonical store a cell that is listed reads as the word listed for it. -/
theorem read_of_mem (hm : m.wf) (he : e ∈ m) : m.read e.1 = e.2 := by
  obtain ⟨hsorted, hcells⟩ := hm
  induction m with
  | nil => cases he
  | cons c m ih =>
    obtain ⟨hbelow, hsorted'⟩ := List.pairwise_cons.1 hsorted
    obtain rfl | he := List.mem_cons.1 he
    · simp [read_cons]
    · rw [read_cons, if_neg (hbelow e he).ne, ih he hsorted' fun e he => hcells e (List.mem_cons_of_mem c he)]

/-- R31, R51: a canonical store lists exactly the cells that do not read as 0. -/
theorem mem_iff_read (hm : m.wf) : e ∈ m ↔ e.2 ≠ 0 ∧ m.read e.1 = e.2 := by
  refine ⟨fun he => ⟨(hm.2 e he).1, read_of_mem hm he⟩, fun ⟨hne, hread⟩ => ?_⟩
  have hlisted : ∃ e' ∈ m, e'.1 = e.1 := by
    by_contra hfree
    push Not at hfree
    exact hne (hread ▸ read_of_not_listed hfree)
  obtain ⟨e', he', haddr⟩ := hlisted
  have hword : e'.2 = e.2 := by rw [← read_of_mem hm he', haddr, hread]
  exact Prod.ext haddr hword ▸ he'

/-- R51: canonical stores that read alike in range list the same cells. -/
theorem subset_of_read_eq (hm : m.wf) (hn : n.wf) (hread : ∀ a, a ≤ Config.addrMax → m.read a = n.read a) (he : e ∈ m) :
    e ∈ n := by
  obtain ⟨hne, hword⟩ := (mem_iff_read hm).1 he
  exact (mem_iff_read hn).2 ⟨hne, hread e.1 (hm.2 e he).2 ▸ hword⟩

theorem wf.nodup (hm : m.wf) : m.Nodup :=
  hm.1.imp fun hlt heq => hlt.ne (congrArg Prod.fst heq)

end Sys2Proof.Machine.Memory

open Sys2Proof.Machine

/-- Settles O2: the two lists have the same members, and both are sorted by address. -/
theorem equalStoresAreEqualLists : Obligations.EqualStoresAreEqualLists := by
  intro m n hm hn hread
  have hperm : m.Perm n := (List.perm_ext_iff_of_nodup (Memory.wf.nodup hm) (Memory.wf.nodup hn)).2 fun e =>
    ⟨Memory.subset_of_read_eq hm hn hread, Memory.subset_of_read_eq hn hm fun a ha => (hread a ha).symm⟩
  exact hperm.eq_of_pairwise (fun e e' _ _ hlt hgt => absurd hgt hlt.asymm) hm.1 hn.1
end

