-- ==== Sys2Proof/Proofs/StepEnds.lean ====
section
/-! PROOFS. How a step ends the run cycle (spec/46_run_cycle_host.md Table 46-A), and where `pc` is after a step with which it
goes on (spec/10_state.md Table 10-A). -/

namespace Sys2Proof.Machine

variable {s t : State} {c g : Arg} {x y : Word}

/-- R110: what is fetched depends on memory and `pc` only. -/
theorem fetch_congr (hmem : t.mem = s.mem) (hpc : t.pc = s.pc) : fetch t = fetch s := by
  simp only [fetch, hmem, hpc]

/-- Table 46-A: an instruction that ends the run cycle takes a fault, is HLT, or is an IN on an empty queue. -/
theorem exec_stops {i : Instr} (h : exec i s = .next t) (hs : s.status = .running) (ht : t.status ≠ .running) :
    (∃ f, t = s.takeFault f) ∨ (t = s.halt ∧ i = .hlt) ∨ (t = s.pause ∧ s.inq = [] ∧ ∃ d, i = .inp d) := by
  obtain (⟨hstatus, -⟩ | hfault) | ⟨hi, hhalt⟩ | ⟨hq, hpause, hi⟩ := exec_ends h
  · exact absurd (hstatus.trans hs) ht
  · exact .inl ⟨_, hfault⟩
  · exact .inr (.inl ⟨hhalt, hi⟩)
  · exact .inr (.inr ⟨hpause, hq, hi⟩)

/-- Table 46-A: a step that ends the run cycle takes a fault, runs a HLT, or runs an IN on an empty queue. -/
theorem step_stops (h : step s = .next t) (hs : s.status = .running) (ht : t.status ≠ .running) :
    (∃ f, t = s.takeFault f) ∨ (t = s.halt ∧ fetch s = .ok .hlt) ∨
      (t = s.pause ∧ s.inq = [] ∧ ∃ d, fetch s = .ok (.inp d)) := by
  obtain ⟨-, f, -, hfault⟩ | ⟨-, i, hfetch, hexec⟩ | ⟨hidle, -⟩ := step_cases h
  · exact .inl ⟨f, hfault⟩
  · obtain hfault | ⟨hhalt, rfl⟩ | ⟨hpause, hq, d, rfl⟩ := exec_stops hexec hs ht
    · exact .inl hfault
    · exact .inr (.inl ⟨hhalt, hfetch⟩)
    · exact .inr (.inr ⟨hpause, hq, d, hfetch⟩)
  · exact absurd hs hidle

/-- R172, D11: a step that ends the run cycle writes `STATUS` and `FAULT` only. -/
theorem pc_of_exec_stops {i : Instr} (h : exec i s = .next t) (hs : s.status = .running) (ht : t.status ≠ .running) :
    t.pc = s.pc := by
  obtain ⟨f, rfl⟩ | ⟨rfl, -⟩ | ⟨rfl, -⟩ := exec_stops h hs ht <;> rfl

/-- A step with which the run cycle goes on runs the instruction fetched. -/
theorem step_goes_on (h : step s = .next t) (hs : s.status = .running) (ht : t.status = .running) :
    ∃ i, fetch s = .ok i ∧ exec i s = .next t := by
  obtain ⟨-, f, -, rfl⟩ | ⟨-, hrun⟩ | ⟨hidle, -⟩ := step_cases h
  · cases ht
  · exact hrun
  · exact absurd hs hidle

/-- R118: an operand reads as one word only. -/
theorem Reads.unique (hx : Reads s c x) (hy : Reads s c y) : x = y :=
  Except.ok.inj ((readValue_ok.2 hx).symm.trans (readValue_ok.2 hy))

/-- R122, R150: after a jump whose condition holds, with which the run cycle goes on, `pc` is the target value. -/
theorem jumpIf_target {i : Instr} {taken : Word → Bool} (h : jumpIf i taken c g s = .next t) (ht : t.status = .running)
    (hx : Reads s c x) (htaken : taken x = true) : Reads s g t.pc ∧ 0 ≤ t.pc.toInt := by
  obtain ⟨x', y, addr, -, hy, -, hcheck, rfl⟩ | ⟨x', y, hx', -, huntaken, -⟩ | ⟨e, rfl, -⟩ := jumpIf_cases h
  · have hnonneg : 0 ≤ y.toInt := by
      have := ((checkAddress_ok _ _).1 hcheck).1
      omega
    rw [checkAddress_of_nonneg hnonneg] at hcheck
    cases hcheck
    rw [State.jump_pc, BitVec.ofNat_toNat, BitVec.setWidth_eq]
    exact ⟨readValue_ok.1 hy, hnonneg⟩
  · rw [(readValue_ok.1 hx').unique hx, htaken] at huntaken
    cases huntaken
  · cases ht

/-- R151, R152: after a taken JT or JF with which the run cycle goes on, `pc` is the target value. -/
theorem exec_jump_target {i : Instr} (h : exec i s = .next t) (ht : t.status = .running) (hx : Reads s c x)
    (hjump : (i = .jt c g ∧ x ≠ 0) ∨ (i = .jf c g ∧ x = 0)) : Reads s g t.pc ∧ 0 ≤ t.pc.toInt := by
  obtain ⟨rfl, hne⟩ | ⟨rfl, hzero⟩ := hjump
  · exact jumpIf_target h ht hx (jumpsOnNonZero_iff.2 hne)
  · exact jumpIf_target h ht hx (jumpsOnZero_iff.2 hzero)

end Sys2Proof.Machine

open Sys2Proof.Machine

/-- Settles O40: a step that ends the run cycle leaves `pc`; with the others the instruction fetched sets it. -/
theorem programCounterUpdateTable10A : Obligations.ProgramCounterUpdateTable10A := by
  refine fun s t hs hstep => ⟨fun ht => ?_, fun ht => ?_⟩
  · obtain ⟨f, rfl⟩ | ⟨rfl, -⟩ | ⟨rfl, -⟩ := step_stops hstep hs ht <;> rfl
  · obtain ⟨i, hfetch, hexec⟩ := step_goes_on hstep hs ht
    refine ⟨i, hfetch, fun c g x hx hjump => exec_jump_target hexec ht hx hjump, fun huntaken => exec_pc hexec ht ?_⟩
    rintro ⟨c, g, x, hx, hjump⟩
    exact huntaken c g x hx hjump
end

