-- ==== Sys2Proof/Proofs/FaultRecords.lean ====
section
/-! PROOFS. Which records a step can leave in `FAULT` (spec/60_exceptions.md Tables 60-A and 60-B): those of fetch and decode, and
those of the instruction once decoded. -/

namespace Sys2Proof.Machine

open Claims (digitOf)

variable {s t : State} {a b d c g : Arg} {w : Word} {i : Instr} {e : FaultRecord}

/-- R194, R195: a cause that the core can record. -/
abbrev FaultCause.Raisable (c : FaultCause) : Prop := c ≠ .none ∧ c ≠ .indexOutOfRange ∧ c ≠ .insufficientInput

/-! ## The range of `info` (R191) -/

theorem infoRange_toInt (w : Word) : InfoRange w.toInt := by
  have hlow := BitVec.le_toInt w
  have hhigh := BitVec.toInt_lt (x := w)
  unfold InfoRange
  omega

/-- R117, R191: the integer an operand forms needs at most 65 bits. -/
theorem infoRange_of_formsAddress {ea : Int} (h : FormsAddress s a ea) : InfoRange ea := by
  obtain ⟨-, rfl⟩ | ⟨-, rfl⟩ := h
  · exact infoRange_toInt _
  · have hlow := BitVec.le_toInt s.rb
    have hhigh := BitVec.toInt_lt (x := s.rb)
    have hlow' := BitVec.le_toInt a.word
    have hhigh' := BitVec.toInt_lt (x := a.word)
    unfold InfoRange
    omega

/-- R191: what a decode fault carries is a remainder, a digit or a word. -/
theorem infoRange_decodeRecord {f : DecodeFault} (hw : decodeWord w = .error f) : InfoRange (decodeRecord f).info := by
  cases f with
  | unknownOpcode c =>
    have hc := (unknownOpcodeExactlyWhen w c).1 hw
    simp only [decodeRecord, InfoRange]
    omega
  | unknownParameterMode digit =>
    obtain ⟨op, hop⟩ := hasOpcode_of_decodeWord_error hw (by simp)
    obtain ⟨k, -, hdigit, -, -⟩ := (unknownParameterModeExactlyWhen w op digit hop).1 hw
    simp only [digitOf] at hdigit
    simp only [decodeRecord, InfoRange]
    omega
  | reservedEncoding v => exact infoRange_toInt v
  | immediateDestination v => exact infoRange_toInt v

theorem raisable_decodeRecord (f : DecodeFault) : (decodeRecord f).cause.Raisable := by
  cases f <;> simp [decodeRecord, FaultCause.Raisable]

/-! ## The records of fetch, decode and operand fetch -/

theorem raisable_of_fetch_error (hfetch : fetch s = .error e) : e.cause.Raisable := by
  obtain rfl | ⟨f, -, rfl⟩ | rfl := fetch_error hfetch
  · simp [addressRange, FaultCause.Raisable]
  · exact raisable_decodeRecord f
  · simp [addressRange, FaultCause.Raisable]

/-- R20, R191: with `pc` at most `ADDR_MAX + 1`, what the fetch carries is in range. -/
theorem infoRange_of_fetch_error (hfetch : fetch s = .error e) (hpc : s.pc.toNat ≤ Config.addrMax + 1) :
    InfoRange e.info := by
  obtain rfl | ⟨f, hw, rfl⟩ | rfl := fetch_error hfetch
  · simp only [addressRange, InfoRange, Config.addrMax] at *
    omega
  · exact infoRange_decodeRecord hw
  · simp [addressRange, InfoRange]

/-! ## The records of an instruction once decoded -/

/-- Table 60-B, with log 6: the records an instruction can leave. -/
def InstrFault (i : Instr) (e : FaultRecord) : Prop :=
  (∃ ea, InfoRange ea ∧ e = addressRange ea) ∨
  (i.opcode ∈ [Opcode.add, .mul, .arb] ∧ e = arithmeticOverflow i.head) ∨
  (¬ i.WellFormed ∧ e = decodeRecord (.immediateDestination i.head))

theorem InstrFault.raisable (h : InstrFault i e) : e.cause.Raisable := by
  obtain ⟨ea, -, rfl⟩ | ⟨-, rfl⟩ | ⟨-, rfl⟩ := h
  · simp [addressRange, FaultCause.Raisable]
  · simp [arithmeticOverflow, FaultCause.Raisable]
  · exact raisable_decodeRecord _

theorem InstrFault.infoRange (h : InstrFault i e) : InfoRange e.info := by
  obtain ⟨ea, hea, rfl⟩ | ⟨-, rfl⟩ | ⟨-, rfl⟩ := h
  · exact hea
  · exact infoRange_toInt _
  · exact infoRange_toInt _

/-- R201, R205: `FAULT` is as before and the machine not newly faulted, or one of the records of `i` is taken. -/
def KeepsFaultOrTakes (s : State) (i : Instr) (t : State) : Prop :=
  (t.fault = s.fault ∧ (t.status = .faulted → s.status = .faulted)) ∨ ∃ e, t = s.takeFault e ∧ InstrFault i e

theorem instrFault_of_readValue (h : readValue s a = .error e) : InstrFault i e := by
  obtain ⟨ea, ⟨hforms, -⟩, rfl⟩ := readValue_error.1 h
  exact .inl ⟨ea, infoRange_of_formsAddress hforms, rfl⟩

theorem instrFault_of_writeAddress (hd : i.dest? = some d) (h : writeAddress s i.head d = .error e) : InstrFault i e := by
  obtain ⟨himm, rfl⟩ | ⟨ea, ⟨hforms, -⟩, rfl⟩ := writeAddress_error.1 h
  · exact .inr (.inr ⟨fun hwf => hwf d hd himm, rfl⟩)
  · exact .inl ⟨ea, infoRange_of_formsAddress hforms, rfl⟩

theorem binaryOp_fault {f : Int → Int → Int} (hd : i.dest? = some d)
    (hover : i.opcode ∈ [Opcode.add, .mul, .arb] ∨ ∀ m n, IsWord (f m n)) (h : binaryOp i f a b d s = .next t) :
    KeepsFaultOrTakes s i t := by
  obtain ⟨x, y, addr, r, -, -, -, -, rfl⟩ | ⟨e, rfl, ha | hb | hdest | ⟨rfl, x, y, -, -, hnone⟩⟩ := binaryOp_cases h
  · exact .inl ⟨rfl, id⟩
  · exact .inr ⟨e, rfl, instrFault_of_readValue ha⟩
  · exact .inr ⟨e, rfl, instrFault_of_readValue hb⟩
  · exact .inr ⟨e, rfl, instrFault_of_writeAddress hd hdest⟩
  · obtain hop | hword := hover
    · exact .inr ⟨_, rfl, .inr (.inl ⟨hop, rfl⟩)⟩
    · exact absurd (hword _ _) ((narrow_none _).1 hnone)

theorem jumpIf_fault {taken : Word → Bool} (h : jumpIf i taken c g s = .next t) : KeepsFaultOrTakes s i t := by
  obtain ⟨x, y, addr, -, -, -, -, rfl⟩ | ⟨x, y, -, -, -, rfl⟩ | ⟨e, rfl, hc | hg | ⟨x, y, -, -, -, hcheck⟩⟩ := jumpIf_cases h
  · exact .inl ⟨rfl, id⟩
  · exact .inl ⟨rfl, id⟩
  · exact .inr ⟨e, rfl, instrFault_of_readValue hc⟩
  · exact .inr ⟨e, rfl, instrFault_of_readValue hg⟩
  · exact .inr ⟨e, rfl, .inl ⟨y.toInt, infoRange_toInt y, ((checkAddress_error _ _).1 hcheck).1⟩⟩

theorem execIn_fault (h : execIn d s = .next t) : KeepsFaultOrTakes s (.inp d) t := by
  obtain ⟨-, rfl⟩ | ⟨v, rest, addr, -, -, rfl⟩ | ⟨v, rest, e, -, he, rfl⟩ := execIn_cases h
  · exact .inl ⟨rfl, nofun⟩
  · exact .inl ⟨rfl, id⟩
  · exact .inr ⟨e, rfl, instrFault_of_writeAddress rfl he⟩

theorem execOut_fault (h : execOut a s = .next t) : KeepsFaultOrTakes s (.out a) t := by
  obtain ⟨v, -, rfl⟩ | ⟨e, he, rfl⟩ := execOut_cases h
  · exact .inl ⟨rfl, id⟩
  · exact .inr ⟨e, rfl, instrFault_of_readValue he⟩

theorem execArb_fault (h : execArb a s = .next t) : KeepsFaultOrTakes s (.arb a) t := by
  obtain ⟨v, r, -, -, rfl⟩ | ⟨e, rfl, he | ⟨rfl, -⟩⟩ := execArb_cases h
  · exact .inl ⟨rfl, id⟩
  · exact .inr ⟨e, rfl, instrFault_of_readValue he⟩
  · exact .inr ⟨_, rfl, .inr (.inl ⟨by simp [Instr.opcode], rfl⟩)⟩

theorem eq_hlt_of_opcode (h : i.opcode = .hlt) : i = .hlt := by
  cases i <;> cases h
  rfl

/-- Table 60-B: what every instruction does to `FAULT`. -/
theorem exec_fault (h : exec i s = .next t) : KeepsFaultOrTakes s i t := by
  cases i with
  | add a b d => exact binaryOp_fault rfl (.inl (by simp [Instr.opcode])) h
  | mul a b d => exact binaryOp_fault rfl (.inl (by simp [Instr.opcode])) h
  | lt a b d => exact binaryOp_fault rfl (.inr isWord_lessThan) h
  | eq a b d => exact binaryOp_fault rfl (.inr isWord_equals) h
  | jt c g => exact jumpIf_fault h
  | jf c g => exact jumpIf_fault h
  | inp d => exact execIn_fault h
  | out a => exact execOut_fault h
  | arb a => exact execArb_fault h
  | hlt =>
    obtain rfl := execHlt_next.1 h
    exact .inl ⟨rfl, nofun⟩

end Sys2Proof.Machine

open Sys2Proof.Machine

/-- Settles O41: the step takes a record of the fetch or of the instruction fetched. -/
theorem faultEntryChangesOnlyStatusAndFault : Obligations.FaultEntryChangesOnlyStatusAndFault := by
  intro s t hs hstep ht
  obtain ⟨-, f, hfetch, rfl⟩ | ⟨-, i, -, hexec⟩ | ⟨hidle, -⟩ := step_cases hstep
  · exact ⟨rfl, (raisable_of_fetch_error hfetch).1⟩
  · obtain ⟨-, hkept⟩ | ⟨e, rfl, he⟩ := exec_fault hexec
    · cases hs.symm.trans (hkept ht)
    · exact ⟨rfl, he.raisable.1⟩
  · exact absurd hs hidle

/-- Settles O42: of the records of an instruction, `ImmediateDestination` needs a term that is not well formed. -/
theorem faultsByInstructionTable60B : Obligations.FaultsByInstructionTable60B := by
  intro s t i hi hs hexec ht
  constructor
  · intro hop
    obtain rfl := eq_hlt_of_opcode hop
    obtain rfl := execHlt_next.1 hexec
    cases ht
  · obtain ⟨-, hkept⟩ | ⟨e, rfl, ⟨ea, -, rfl⟩ | ⟨hop, rfl⟩ | ⟨hill, -⟩⟩ := exec_fault hexec
    · exact absurd (hkept ht) hs
    · exact .inl rfl
    · exact .inr ⟨rfl, hop⟩
    · exact absurd hi hill
end

