-- ==== Sys2Proof/Proofs/Frames.lean ====
section
/-! PROOFS. What each shared operation leaves unchanged, and which instructions write each piece of state
(spec/10_state.md section 11, Table 10-D). -/

namespace Sys2Proof.Machine

open Claims (SameStore)

variable {s t : State} {a b d c g : Arg} {i : Instr} {w : Word}

/-! ## Memory -/

/-- R119: memory is unchanged, or the one cell the destination names was written. -/
def WritesOnlyAt (s : State) (w : Word) (d : Arg) (t : State) : Prop :=
  t.mem = s.mem ∨ ∃ addr v, writeAddress s w d = .ok addr ∧ t.mem = s.mem.write addr v

theorem sameStore_of_mem_eq (h : t.mem = s.mem) : SameStore s t :=
  fun c => by rw [h]

theorem WritesOnlyAt.read_other (h : WritesOnlyAt s w d t) {addr : Nat} (hd : writeAddress s w d = .ok addr) {c : Nat}
    (hc : c ≠ addr) : t.mem.read c = s.mem.read c := by
  obtain hmem | ⟨addr', v, hd', hmem⟩ := h
  · rw [hmem]
  · obtain rfl : addr' = addr := Except.ok.inj (hd'.symm.trans hd)
    rw [hmem, Memory.read_write_other _ _ _ _ hc]

theorem WritesOnlyAt.sameStore_of_error (h : WritesOnlyAt s w d t) {f : FaultRecord} (hd : writeAddress s w d = .error f) :
    SameStore s t := by
  obtain hmem | ⟨addr, v, hd', -⟩ := h
  · exact sameStore_of_mem_eq hmem
  · rw [hd] at hd'
    cases hd'

/-- R57: a destination is an address in range, so that the store stays canonical. -/
theorem WritesOnlyAt.wf (h : WritesOnlyAt s w d t) (hs : s.mem.wf) : t.mem.wf := by
  obtain hmem | ⟨addr, v, hd, hmem⟩ := h
  · exact hmem ▸ hs
  · obtain ⟨-, hrange⟩ := writeAddress_ok.1 hd
    exact hmem ▸ Memory.wf_write _ _ _ hs hrange

theorem binaryOp_mem {f : Int → Int → Int} (h : binaryOp i f a b d s = .next t) : WritesOnlyAt s i.head d t := by
  obtain ⟨x, y, addr, r, -, -, hd, -, rfl⟩ | ⟨e, rfl, -⟩ := binaryOp_cases h
  · exact .inr ⟨addr, r, hd, rfl⟩
  · exact .inl rfl

theorem execIn_mem (h : execIn d s = .next t) : WritesOnlyAt s (Instr.inp d).head d t := by
  obtain ⟨-, rfl⟩ | ⟨v, rest, addr, -, hd, rfl⟩ | ⟨v, rest, e, -, -, rfl⟩ := execIn_cases h
  · exact .inl rfl
  · exact .inr ⟨addr, v, hd, rfl⟩
  · exact .inl rfl

/-! ## The other pieces of state -/

theorem binaryOp_frame {f : Int → Int → Int} (h : binaryOp i f a b d s = .next t) :
    t.rb = s.rb ∧ t.inq = s.inq ∧ t.outbuf = s.outbuf := by
  obtain ⟨x, y, addr, r, -, -, -, -, rfl⟩ | ⟨e, rfl, -⟩ := binaryOp_cases h <;> exact ⟨rfl, rfl, rfl⟩

theorem jumpIf_frame {taken : Word → Bool} (h : jumpIf i taken c g s = .next t) :
    t.mem = s.mem ∧ t.rb = s.rb ∧ t.inq = s.inq ∧ t.outbuf = s.outbuf := by
  obtain ⟨x, y, addr, -, -, -, -, rfl⟩ | ⟨x, y, -, -, -, rfl⟩ | ⟨e, rfl, -⟩ := jumpIf_cases h <;>
    exact ⟨rfl, rfl, rfl, rfl⟩

/-- R140: IN takes at most the head of the queue. -/
theorem execIn_frame (h : execIn d s = .next t) :
    t.rb = s.rb ∧ t.outbuf = s.outbuf ∧ (t.inq = s.inq ∨ ∃ v, s.inq = v :: t.inq) := by
  obtain ⟨-, rfl⟩ | ⟨v, rest, addr, hq, -, rfl⟩ | ⟨v, rest, e, -, -, rfl⟩ := execIn_cases h
  · exact ⟨rfl, rfl, .inl rfl⟩
  · exact ⟨rfl, rfl, .inr ⟨v, hq⟩⟩
  · exact ⟨rfl, rfl, .inl rfl⟩

/-- R140, D10: IN leaves the queue when its destination is bad. -/
theorem execIn_inq_of_error (h : execIn d s = .next t) {f : FaultRecord}
    (hd : writeAddress s (Instr.inp d).head d = .error f) : t.inq = s.inq := by
  obtain ⟨-, rfl⟩ | ⟨v, rest, addr, -, hd', -⟩ | ⟨v, rest, e, -, -, rfl⟩ := execIn_cases h
  · rfl
  · rw [hd] at hd'
    cases hd'
  · rfl

/-- R141: OUT appends at most one word. -/
theorem execOut_frame (h : execOut a s = .next t) :
    t.mem = s.mem ∧ t.rb = s.rb ∧ t.inq = s.inq ∧ (t.outbuf = s.outbuf ∨ ∃ v, t.outbuf = s.outbuf ++ [v]) := by
  obtain ⟨v, -, rfl⟩ | ⟨e, -, rfl⟩ := execOut_cases h
  · exact ⟨rfl, rfl, rfl, .inr ⟨v, rfl⟩⟩
  · exact ⟨rfl, rfl, rfl, .inl rfl⟩

theorem execArb_frame (h : execArb a s = .next t) : t.mem = s.mem ∧ t.inq = s.inq ∧ t.outbuf = s.outbuf := by
  obtain ⟨v, r, -, -, rfl⟩ | ⟨e, rfl, -⟩ := execArb_cases h <;> exact ⟨rfl, rfl, rfl⟩

/-! ## Table 10-D -/

/-- Table 10-D: memory, `rb`, `INQ` and `OUTBUF` are as before, or the operation is one that the table lists for them. -/
structure WritesAsListed (op : Opcode) (s t : State) : Prop where
  mem : t.mem = s.mem ∨ op ∈ [Opcode.add, .mul, .lt, .eq, .inp]
  rb : t.rb = s.rb ∨ op = .arb
  inq : t.inq = s.inq ∨ op = .inp ∧ ∃ v, s.inq = v :: t.inq
  outbuf : t.outbuf = s.outbuf ∨ op = .out ∧ ∃ v, t.outbuf = s.outbuf ++ [v]

theorem binaryOp_writes {f : Int → Int → Int} (hop : i.opcode ∈ [Opcode.add, .mul, .lt, .eq, .inp])
    (h : binaryOp i f a b d s = .next t) : WritesAsListed i.opcode s t := by
  obtain ⟨hrb, hinq, hout⟩ := binaryOp_frame h
  exact ⟨.inr hop, .inl hrb, .inl hinq, .inl hout⟩

theorem jumpIf_writes {taken : Word → Bool} (h : jumpIf i taken c g s = .next t) (op : Opcode) : WritesAsListed op s t := by
  obtain ⟨hmem, hrb, hinq, hout⟩ := jumpIf_frame h
  exact ⟨.inl hmem, .inl hrb, .inl hinq, .inl hout⟩

/-- Table 10-D: each instruction writes only what the table lists for it. -/
theorem exec_writes (h : exec i s = .next t) : WritesAsListed i.opcode s t := by
  cases i with
  | add a b d => exact binaryOp_writes (by simp [Instr.opcode]) h
  | mul a b d => exact binaryOp_writes (by simp [Instr.opcode]) h
  | lt a b d => exact binaryOp_writes (by simp [Instr.opcode]) h
  | eq a b d => exact binaryOp_writes (by simp [Instr.opcode]) h
  | jt c g => exact jumpIf_writes h _
  | jf c g => exact jumpIf_writes h _
  | inp d =>
    obtain ⟨hrb, hout, hinq⟩ := execIn_frame h
    exact ⟨.inr (by simp [Instr.opcode]), .inl hrb, hinq.imp_right fun hv => ⟨rfl, hv⟩, .inl hout⟩
  | out a =>
    obtain ⟨hmem, hrb, hinq, hout⟩ := execOut_frame h
    exact ⟨.inl hmem, .inl hrb, .inl hinq, hout.imp_right fun hv => ⟨rfl, hv⟩⟩
  | arb a =>
    obtain ⟨hmem, hinq, hout⟩ := execArb_frame h
    exact ⟨.inl hmem, .inr rfl, .inl hinq, .inl hout⟩
  | hlt =>
    obtain rfl := execHlt_next.1 h
    exact ⟨.inl rfl, .inl rfl, .inl rfl, .inl rfl⟩

/-- Table 10-D, D19: a step writes these four pieces only by the instruction it fetched. -/
theorem step_writes (h : step s = .next t) :
    (t.mem = s.mem ∧ t.rb = s.rb ∧ t.inq = s.inq ∧ t.outbuf = s.outbuf) ∨
      ∃ i, fetch s = .ok i ∧ WritesAsListed i.opcode s t := by
  obtain ⟨-, f, -, rfl⟩ | ⟨-, i, hfetch, hexec⟩ | ⟨-, rfl⟩ := step_cases h
  · exact .inl ⟨rfl, rfl, rfl, rfl⟩
  · exact .inr ⟨i, hfetch, exec_writes hexec⟩
  · exact .inl ⟨rfl, rfl, rfl, rfl⟩

end Sys2Proof.Machine

open Sys2Proof Sys2Proof.Machine

/-- Settles O35: the frame of the shared operation. -/
theorem frameOfThreeOperandInstructions : Obligations.FrameOfThreeOperandInstructions := by
  intro s t a b d i hi hexec
  obtain ⟨f, hbinary⟩ := exec_eq_binaryOp hi
  rw [hbinary] at hexec
  obtain ⟨hrb, hinq, hout⟩ := binaryOp_frame hexec
  have hmem := binaryOp_mem hexec
  exact ⟨hrb, hinq, hout, binaryOp_quietOrFaulted hexec, fun addr hd c hc => hmem.read_other hd hc,
    fun f hd => hmem.sameStore_of_error hd⟩

/-- Settles O36: on an empty queue IN is a pause, otherwise it stores or takes one fault. -/
theorem frameOfInput : Obligations.FrameOfInput := by
  intro s t d hexec
  obtain ⟨hrb, hout, hinq⟩ := execIn_frame hexec
  have hmem := execIn_mem hexec
  refine ⟨hrb, hout, hinq, fun hq => ?_, fun hq => ?_, fun addr hd c hc => hmem.read_other hd hc,
    fun f hd => ⟨hmem.sameStore_of_error hd, execIn_inq_of_error hexec hd⟩⟩
  · cases (execIn_of_empty hq).symm.trans hexec
    exact ⟨sameStore_of_mem_eq rfl, rfl, rfl⟩
  · obtain ⟨hempty, -⟩ | hquiet := execIn_pause_or_quietOrFaulted hexec
    · exact absurd hempty hq
    · exact hquiet

/-- Settles O37: the frames of OUT, of the shared jump, of ARB and of HLT. -/
theorem frameOfNonStoringInstructions : Obligations.FrameOfNonStoringInstructions := by
  refine fun s t a c g => ⟨fun hexec => ?_, fun i hi hexec => ?_, fun hexec => ?_, fun hexec => ?_⟩
  · obtain ⟨hmem, hrb, hinq, -⟩ := execOut_frame hexec
    exact ⟨sameStore_of_mem_eq hmem, hinq, hrb, execOut_quietOrFaulted hexec⟩
  · obtain ⟨taken, hjump⟩ := exec_eq_jumpIf hi
    rw [hjump] at hexec
    obtain ⟨hmem, hrb, hinq, hout⟩ := jumpIf_frame hexec
    exact ⟨sameStore_of_mem_eq hmem, hinq, hrb, hout, jumpIf_quietOrFaulted hexec⟩
  · obtain ⟨hmem, hinq, hout⟩ := execArb_frame hexec
    exact ⟨sameStore_of_mem_eq hmem, hinq, hout, execArb_quietOrFaulted hexec⟩
  · obtain rfl := execHlt_next.1 hexec
    exact ⟨sameStore_of_mem_eq rfl, rfl, rfl, rfl, rfl, rfl⟩

/-- Settles O38: Table 10-D for the instruction fetched; the other steps write none of the four. -/
theorem onlyListedInstructionsWrite : Obligations.OnlyListedInstructionsWrite := by
  intro s t hstep
  obtain ⟨hmem, hrb, hinq, hout⟩ | ⟨i, hfetch, hlisted⟩ := step_writes hstep
  · exact ⟨fun h => absurd hmem h, fun h => absurd hrb h, fun h => absurd hinq h, fun h => absurd hout h⟩
  · exact ⟨fun h => ⟨i, hfetch, hlisted.mem.resolve_left h⟩, fun h => ⟨i, hfetch, hlisted.rb.resolve_left h⟩,
      fun h => ⟨i, hfetch, hlisted.inq.resolve_left h⟩, fun h => ⟨i, hfetch, hlisted.outbuf.resolve_left h⟩⟩
end

