-- ==== Sys2Proof/Proofs/Invariant.lean ====
section
/-! PROOFS. The machine invariant: reset meets it, and every step and every host transaction keeps it; in a reachable state
`STATUS` says what is at `pc` (spec/10_state.md sections 1, 5 and 8, spec/20_memory.md section 4). -/

namespace Sys2Proof.Machine

variable {s t : State} {i : Instr} {e : FaultRecord}

/-! ## The invariant under the ways a state changes -/

/-- R29, R191: a state with the `FAULT` of one that meets the invariant, a canonical store and a `pc` in range meets it. -/
theorem State.Inv.of_fault_eq (hs : s.Inv) (hmem : t.mem.wf) (hpc : t.pc.toNat ≤ Config.addrMax + 1)
    (hfault : t.fault = s.fault) (hstatus : t.status = .faulted ↔ s.status = .faulted) : t.Inv where
  mem_wf := hmem
  pc_le := hpc
  faulted_iff := by rw [hstatus, hfault, hs.faulted_iff]
  clear_info := hfault ▸ hs.clear_info
  not_index := hfault ▸ hs.not_index
  not_supply := hfault ▸ hs.not_supply
  info_range := hfault ▸ hs.info_range

/-- R201: taking a fault that the core can raise keeps the invariant. -/
theorem State.Inv.takeFault (hs : s.Inv) (hcause : e.cause.Raisable) (hinfo : InfoRange e.info) : (s.takeFault e).Inv where
  mem_wf := hs.mem_wf
  pc_le := hs.pc_le
  faulted_iff := iff_of_true rfl hcause.1
  clear_info := fun h => absurd h hcause.1
  not_index := hcause.2.1
  not_supply := hcause.2.2
  info_range := hinfo

/-- R230: the reset state of every image meets the invariant. -/
theorem State.inv_new (image : List Word) : (State.new image).Inv where
  mem_wf := Memory.wf_writeCells _ _ Memory.wf_nil image
  pc_le := by simp
  faulted_iff := by simp
  clear_info := fun _ => rfl
  not_index := by simp
  not_supply := by simp
  info_range := by simp [InfoRange]

theorem State.Inv.addInputs (hs : s.Inv) (values : List Word) : (s.addInputs values).Inv :=
  hs.of_fault_eq hs.mem_wf hs.pc_le rfl Iff.rfl

theorem State.Inv.beginRun (hs : s.Inv) : s.beginRun.Inv := by
  refine hs.of_fault_eq (s.beginRun_mem ▸ hs.mem_wf) (s.beginRun_pc ▸ hs.pc_le) s.beginRun_fault ?_
  rw [State.beginRun_status]
  split <;> simp_all

/-! ## The invariant under a step -/

/-- R57: every instruction keeps the store canonical. -/
theorem mem_wf_of_exec (h : exec i s = .next t) (hs : s.mem.wf) : t.mem.wf := by
  have hsame : t.mem = s.mem → t.mem.wf := fun hmem => hmem ▸ hs
  cases i with
  | add a b d => exact (binaryOp_mem h).wf hs
  | mul a b d => exact (binaryOp_mem h).wf hs
  | lt a b d => exact (binaryOp_mem h).wf hs
  | eq a b d => exact (binaryOp_mem h).wf hs
  | inp d => exact (execIn_mem h).wf hs
  | out a => exact hsame (execOut_frame h).1
  | jt c g => exact hsame (jumpIf_frame h).1
  | jf c g => exact hsame (jumpIf_frame h).1
  | arb a => exact hsame (execArb_frame h).1
  | hlt =>
    obtain rfl := execHlt_next.1 h
    exact hs

/-- R20: a fetched instruction leaves `pc` at most `ADDR_MAX + 1`: it stays, advances past an instruction that lies in memory, or
is set to a word that is not negative. -/
theorem pc_le_of_exec (hfetch : fetch s = .ok i) (h : exec i s = .next t) (hs : s.status = .running)
    (hpc : s.pc.toNat ≤ Config.addrMax + 1) : t.pc.toNat ≤ Config.addrMax + 1 := by
  by_cases ht : t.status = .running
  · by_cases hjump : TakesJump s i
    · obtain ⟨c, g, x, hx, hcond⟩ := hjump
      obtain ⟨-, hnonneg⟩ := exec_jump_target h ht hx hcond
      have := BitVec.toInt_pos_iff.1 hnonneg
      simp only [Config.addrMax]
      omega
    · rw [exec_pc h ht hjump, toNat_pc_add_arity hfetch]
      exact pc_add_arity_le_of_fetch hfetch
  · rw [pc_of_exec_stops h hs ht]
    exact hpc

/-- A fetched instruction keeps the invariant. -/
theorem inv_of_exec (hfetch : fetch s = .ok i) (h : exec i s = .next t) (hs : s.status = .running) (hinv : s.Inv) : t.Inv := by
  obtain ⟨hfault, hkept⟩ | ⟨e, rfl, he⟩ := exec_fault h
  · have hnot : s.status ≠ .faulted := by simp [hs]
    exact hinv.of_fault_eq (mem_wf_of_exec h hinv.mem_wf) (pc_le_of_exec hfetch h hs hinv.pc_le) hfault
      (iff_of_false (hnot ∘ hkept) hnot)
  · exact hinv.takeFault he.raisable he.infoRange

/-- A step keeps the invariant. -/
theorem inv_of_step (hinv : s.Inv) (h : step s = .next t) : t.Inv := by
  obtain ⟨-, f, hfetch, rfl⟩ | ⟨hs, i, hfetch, hexec⟩ | ⟨-, rfl⟩ := step_cases h
  · exact hinv.takeFault (raisable_of_fetch_error hfetch) (infoRange_of_fetch_error hfetch hinv.pc_le)
  · exact inv_of_exec hfetch hexec hs hinv
  · exact hinv

/-! ## What is at `pc` -/

/-- R140, R165, D11: in a `Completed` state the instruction at `pc` is HLT, in a `PendingInput` state it is IN. -/
def StatusSaysPc (s : State) : Prop :=
  (s.status = .completed → fetch s = .ok .hlt) ∧ (s.status = .pendingInput → ∃ d, fetch s = .ok (.inp d))

theorem statusSaysPc_of_running (hs : s.status = .running) : StatusSaysPc s := by
  simp [StatusSaysPc, hs]

theorem statusSaysPc_of_step (hsays : StatusSaysPc s) (h : step s = .next t) : StatusSaysPc t := by
  by_cases hs : s.status = .running
  · by_cases ht : t.status = .running
    · exact statusSaysPc_of_running ht
    · obtain ⟨f, rfl⟩ | ⟨rfl, hhlt⟩ | ⟨rfl, -, d, hin⟩ := step_stops h hs ht
      · exact ⟨nofun, nofun⟩
      · exact ⟨fun _ => hhlt, nofun⟩
      · exact ⟨nofun, fun _ => ⟨d, hin⟩⟩
  · cases (step_idle hs).symm.trans h
    exact hsays

theorem StatusSaysPc.addInputs (hsays : StatusSaysPc s) (values : List Word) : StatusSaysPc (s.addInputs values) :=
  hsays

theorem statusSaysPc_beginRun (s : State) : StatusSaysPc s.beginRun := by
  by_cases hs : s.status = .faulted <;> simp [StatusSaysPc, State.beginRun_status, hs]

/-- Every state that a host can bring about meets the invariant, and its status says what is at `pc`. -/
theorem Reachable.inv_and_statusSaysPc (h : Reachable s) : s.Inv ∧ StatusSaysPc s := by
  induction h with
  | new image _ => exact ⟨State.inv_new image, nofun, nofun⟩
  | addInputs s values _ _ ih => exact ⟨ih.1.addInputs values, ih.2.addInputs values⟩
  | beginRun s _ _ ih => exact ⟨ih.1.beginRun, statusSaysPc_beginRun s⟩
  | step s t _ hstep ih => exact ⟨inv_of_step ih.1 hstep, statusSaysPc_of_step ih.2 hstep⟩

end Sys2Proof.Machine

open Sys2Proof.Machine

/-- Settles O54: by what the fetch and the instruction fetched do to memory, `pc`, `STATUS` and `FAULT`. -/
theorem stepKeepsTheInvariant : Obligations.StepKeepsTheInvariant :=
  fun _ _ hinv hstep => inv_of_step hinv hstep

/-- Settles O55: by induction on the moves of the host and the core. -/
theorem reachableStatesMeetTheInvariant : Obligations.ReachableStatesMeetTheInvariant :=
  fun _ h => h.inv_and_statusSaysPc

/-- Settles O53: `State.reset` is the reset state of the empty image. -/
theorem resetMeetsTheInvariant : Obligations.ResetMeetsTheInvariant :=
  ⟨State.inv_new [], State.inv_new⟩
end

