-- ==== Sys2Proof/Proofs/RunCycle.lean ====
section
/-! PROOFS. The loop of a `RUN` and how it ends (spec/46_run_cycle_host.md sections 1, 2 and 5): what every step keeps holds of
the state a `RUN` leaves. -/

namespace Sys2Proof.Machine

variable {s t u : State} {fuel : Nat}

/-! ## The loop -/

/-- R172: a loop that ends was at a state that does not run, or took one step and went on with one less fuel. -/
theorem runLoop_cases (h : runLoop fuel s = some u) :
    (s.status ≠ .running ∧ u = s) ∨
      (s.status = .running ∧ ∃ k t, fuel = k + 1 ∧ step s = .next t ∧ runLoop k t = some u) := by
  by_cases hs : s.status = .running
  · obtain ⟨t, hstep⟩ := step_answers s
    cases fuel with
    | zero => simp [runLoop, hs] at h
    | succ k =>
      rw [runLoop_step hs hstep] at h
      exact .inr ⟨hs, k, t, rfl, hstep, h⟩
  · rw [runLoop_stopped hs] at h
    exact .inl ⟨hs, (Option.some.inj h).symm⟩

/-- What every step keeps, a loop keeps. -/
theorem runLoop_keeps {P : State → Prop} (hkeeps : ∀ s t, P s → step s = .next t → P t) (h : runLoop fuel s = some u)
    (hs : P s) : P u := by
  induction fuel generalizing s with
  | zero =>
    obtain ⟨-, rfl⟩ | ⟨-, k, t, hk, -⟩ := runLoop_cases h
    · exact hs
    · cases hk
  | succ fuel ih =>
    obtain ⟨-, rfl⟩ | ⟨-, k, t, hk, hstep, hloop⟩ := runLoop_cases h
    · exact hs
    · cases hk
      exact ih hloop (hkeeps s t hs hstep)

/-- Log 7: a loop that ends, ends the same way with more fuel. -/
theorem runLoop_mono {more : Nat} (h : runLoop fuel s = some u) (hle : fuel ≤ more) : runLoop more s = some u := by
  induction more generalizing fuel s with
  | zero => rwa [Nat.le_zero.1 hle] at h
  | succ more ih =>
    obtain ⟨hs, rfl⟩ | ⟨hs, k, t, rfl, hstep, hloop⟩ := runLoop_cases h
    · exact runLoop_stopped hs _
    · rw [runLoop_step hs hstep]
      exact ih hloop (Nat.le_of_succ_le_succ hle)

/-! ## The state a run cycle leaves -/

/-- R140: a machine that waits for input has an empty queue; it holds of the end of every run cycle, and until `ADD_INPUTS`. -/
def PausedOnEmptyQueue (s : State) : Prop := s.status = .pendingInput → s.inq = []

theorem pausedOnEmptyQueue_of_step (hs : PausedOnEmptyQueue s) (h : step s = .next t) : PausedOnEmptyQueue t := by
  intro ht
  by_cases hrun : s.status = .running
  · obtain ⟨hq, rfl, -⟩ := step_of_pendingInput hrun h ht
    exact hq
  · cases (step_idle hrun).symm.trans h
    exact hs ht

theorem pausedOnEmptyQueue_beginRun (s : State) : PausedOnEmptyQueue s.beginRun := by
  by_cases hs : s.status = .faulted <;> simp [PausedOnEmptyQueue, State.beginRun_status, hs]

theorem statusSaysPc_of_runCycle (h : runCycle fuel s = some u) : StatusSaysPc u :=
  runLoop_keeps (fun _ _ => statusSaysPc_of_step) h (statusSaysPc_beginRun s)

theorem pausedOnEmptyQueue_of_runCycle (h : runCycle fuel s = some u) : PausedOnEmptyQueue u :=
  runLoop_keeps (fun _ _ => pausedOnEmptyQueue_of_step) h (pausedOnEmptyQueue_beginRun s)

theorem inv_of_runCycle (h : runCycle fuel s = some u) (hs : s.Inv) : u.Inv :=
  runLoop_keeps (fun _ _ => inv_of_step) h hs.beginRun

/-- R29: a state that is not faulted has no fault recorded. -/
theorem State.Inv.fault_eq_clear (hs : s.Inv) (hstatus : s.status ≠ .faulted) : s.fault = .clear := by
  have hcause : s.fault.cause = .none := by
    by_contra h
    exact hstatus (hs.faulted_iff.2 h)
  rw [show s.fault = ⟨s.fault.cause, s.fault.info⟩ from rfl, hcause, hs.clear_info hcause]

/-! ## The opening of a run cycle -/

/-- R177: opening a `RUN` on a faulted machine only empties `OUTBUF`. -/
theorem State.beginRun_of_faulted (hs : s.status = .faulted) : s.beginRun = { s with outbuf := [] } := by
  simp [State.beginRun, hs]

/-- R172: any other machine starts to run. -/
theorem State.beginRun_of_not_faulted (hs : s.status ≠ .faulted) :
    s.beginRun = { s with outbuf := [], status := .running } := by
  unfold State.beginRun
  split
  case h_1 h => exact absurd h hs
  all_goals rfl

/-- R177: a `RUN` on a faulted machine takes no step. -/
theorem runCycle_of_faulted (hs : s.status = .faulted) (fuel : Nat) : runCycle fuel s = some { s with outbuf := [] } := by
  rw [runCycle, State.beginRun_of_faulted hs]
  exact runLoop_stopped (by simp [hs]) fuel

/-- R172: a `RUN` whose first step ends the run cycle. -/
theorem runCycle_of_one_step (hs : s.status ≠ .faulted) (hstep : step s.beginRun = .next t) (ht : t.status ≠ .running) :
    runCycle (fuel + 1) s = some t := by
  have hrun : s.beginRun.status = .running := by simp [State.beginRun_status, hs]
  rw [runCycle, runLoop_step hrun hstep, runLoop_stopped ht]

/-- R110: the first step of a `RUN` runs what is at `pc`. -/
theorem step_beginRun {i : Instr} (hs : s.status ≠ .faulted) (hfetch : fetch s = .ok i) :
    step s.beginRun = exec i s.beginRun := by
  have hrun : s.beginRun.status = .running := by simp [State.beginRun_status, hs]
  exact step_of_fetch hrun ((fetch_congr s.beginRun_mem s.beginRun_pc).trans hfetch)

/-- R179, D11: a `RUN` on a completed machine executes the HLT again. -/
theorem runCycle_of_completed (hs : s.status = .completed) (hfetch : fetch s = .ok .hlt) :
    runCycle (fuel + 1) s = some { s with outbuf := [] } := by
  have hne : s.status ≠ .faulted := by simp [hs]
  have hend : s.beginRun.halt = { s with outbuf := [] } := by
    simp [State.beginRun_of_not_faulted hne, State.halt, hs]
  rw [← hend]
  exact runCycle_of_one_step hne (step_beginRun hne hfetch) (by simp)

/-- R174, D16: a `RUN` on a paused machine with nothing queued pauses again. -/
theorem runCycle_of_pendingInput {d : Arg} (hs : s.status = .pendingInput) (hq : s.inq = [])
    (hfetch : fetch s = .ok (.inp d)) : runCycle (fuel + 1) s = some { s with outbuf := [] } := by
  have hne : s.status ≠ .faulted := by simp [hs]
  have hend : s.beginRun.pause = { s with outbuf := [] } := by
    simp [State.beginRun_of_not_faulted hne, State.pause, hs]
  have hstep : step s.beginRun = .next s.beginRun.pause :=
    (step_beginRun hne hfetch).trans (execIn_of_empty (s.beginRun_inq.trans hq))
  rw [← hend]
  exact runCycle_of_one_step hne hstep (by simp)

/-! ## The transaction RUN -/

/-- R172: a `RUN` that ends hands over the result of the state it leaves. -/
theorem transact_run {x : RunResult} (hs : s.status ≠ .running) (hrun : runCycle fuel s = some u)
    (hx : u.runResult = some x) : transact fuel .run s = .made u (.result x) := by
  simp [transact, hs, hrun, hx]

/-- R170, R172: a `RUN` that is made has ended. -/
theorem transact_run_made {r : Reply} (h : transact fuel .run s = .made u r) :
    runCycle fuel s = some u ∧ ∃ x, u.runResult = some x ∧ r = .result x := by
  unfold transact at h
  split at h
  case isTrue => cases h
  case isFalse hs =>
    cases hrun : runCycle fuel s with
    | none => simp [hrun] at h
    | some v =>
      cases hx : v.runResult with
      | none => simp [hrun, hx] at h
      | some x =>
        simp only [hrun, hx, Transacted.made.injEq] at h
        obtain ⟨rfl, rfl⟩ := h
        exact ⟨rfl, x, hx, rfl⟩

/-- Table 46-A: the three results, each with the status it is read from. -/
theorem State.runResult_eq_some {x : RunResult} : s.runResult = some x ↔
    (s.status = .pendingInput ∧ x = .pendingInput s.outbuf) ∨ (s.status = .completed ∧ x = .completed s.outbuf) ∨
      (s.status = .faulted ∧ x = .fault s.fault) := by
  cases hs : s.status <;> simp [State.runResult, hs, eq_comm]

end Sys2Proof.Machine

open Sys2Proof.Machine

/-- Settles O47: fuel that is left over is not used. -/
theorem moreFuelGivesTheSameRun : Obligations.MoreFuelGivesTheSameRun :=
  fun _ _ _ _ hrun hle => runLoop_mono hrun hle

/-- Settles O45: the state that a run cycle leaves has a status with a result, and its status says what is at `pc`. -/
theorem endsOfARunCycle : Obligations.EndsOfARunCycle := by
  intro fuel s u r _ hmade
  obtain ⟨hrun, x, hx, rfl⟩ := transact_run_made hmade
  obtain ⟨hcompleted, hpending⟩ := statusSaysPc_of_runCycle hrun
  obtain ⟨hu, rfl⟩ | ⟨hu, rfl⟩ | ⟨hu, rfl⟩ := State.runResult_eq_some.1 hx
  · exact .inl ⟨hu, rfl, pausedOnEmptyQueue_of_runCycle hrun hu, hpending hu⟩
  · exact .inr (.inl ⟨hu, rfl, hcompleted hu⟩)
  · exact .inr (.inr ⟨hu, rfl⟩)

/-- Settles O46: the further `RUN` takes one step, the HLT or the IN that ended the first. -/
theorem runAgainWithoutInputChangesNothing : Obligations.RunAgainWithoutInputChangesNothing := by
  refine fun fuel more s u outs => ⟨fun hmade => ?_, fun hmade => ?_⟩
  · obtain ⟨hrun, x, hx, hr⟩ := transact_run_made hmade
    cases hr
    obtain ⟨hu, -⟩ : u.status = .completed ∧ outs = u.outbuf := by simpa using State.runResult_eq_some.1 hx
    have hagain := runCycle_of_completed (fuel := more) hu ((statusSaysPc_of_runCycle hrun).1 hu)
    exact transact_run (by simp [hu]) hagain (by simp [State.runResult, hu])
  · obtain ⟨hrun, x, hx, hr⟩ := transact_run_made hmade
    cases hr
    obtain ⟨hu, -⟩ : u.status = .pendingInput ∧ outs = u.outbuf := by simpa using State.runResult_eq_some.1 hx
    obtain ⟨d, hfetch⟩ := (statusSaysPc_of_runCycle hrun).2 hu
    have hagain := runCycle_of_pendingInput (fuel := more) hu (pausedOnEmptyQueue_of_runCycle hrun hu) hfetch
    exact transact_run (by simp [hu]) hagain (by simp [State.runResult, hu])

/-- Settles O52: the Blocking Runner reads the result off the state that its `RUN` leaves, which meets the invariant. -/
theorem blockingRunnerNeverRecordsInsufficientInput : Obligations.BlockingRunnerNeverRecordsInsufficientInput := by
  intro fuel image inputs u hrun
  have hinv : u.Inv := inv_of_runCycle hrun ((State.inv_new image).addInputs inputs)
  have hresult : blockingRun fuel image inputs = some .insufficientInput ↔ u.status = .pendingInput := by
    cases hu : u.status <;> simp [blockingRun, hrun, State.runResult, hu]
  have houtputs : ∀ outs, blockingRun fuel image inputs = some (.outputs outs) ↔ u.status = .completed ∧ outs = u.outbuf := by
    intro outs
    cases hu : u.status <;> simp [blockingRun, hrun, State.runResult, hu, eq_comm]
  refine ⟨hresult, houtputs, fun hended => hinv.fault_eq_clear fun hu => ?_⟩
  simp [hu] at hended
end

