-- ==== Sys2Proof/Proofs/Resume.lean ====
section
/-! PROOFS. A run that pauses and is resumed is the run with its inputs queued at once (spec/46_run_cycle_host.md R174): a step does
not look at what is queued behind the inputs it takes, nor at what is in `OUTBUF`. -/

namespace Sys2Proof.Machine

variable {s t u v : State} {pre post : List Word}

/-- `s` with `pre` put before what is in `OUTBUF` and `post` queued behind what is in `INQ`. -/
def State.widen (pre post : List Word) (s : State) : State :=
  { s with outbuf := pre ++ s.outbuf, inq := s.inq ++ post }

/-- An outcome with the state it leads to widened. -/
def widenOut (pre post : List Word) : Out → Out
  | .next t => .next (t.widen pre post)
  | .fault r => .fault r
  | .refused r => .refused r

@[simp] theorem readValue_widen (a : Arg) : readValue (s.widen pre post) a = readValue s a := rfl

@[simp] theorem writeAddress_widen (w : Word) (d : Arg) : writeAddress (s.widen pre post) w d = writeAddress s w d := rfl

theorem binaryOp_widen (i : Instr) (f : Int → Int → Int) (a b d : Arg) :
    binaryOp i f a b d (s.widen pre post) = widenOut pre post (binaryOp i f a b d s) := by
  simp only [binaryOp, readValue_widen, writeAddress_widen]
  repeat' split
  all_goals rfl

theorem jumpIf_widen (i : Instr) (taken : Word → Bool) (c g : Arg) :
    jumpIf i taken c g (s.widen pre post) = widenOut pre post (jumpIf i taken c g s) := by
  simp only [jumpIf, readValue_widen]
  repeat' split
  all_goals rfl

theorem execArb_widen (a : Arg) : execArb a (s.widen pre post) = widenOut pre post (execArb a s) := by
  simp only [execArb, readValue_widen, show (s.widen pre post).rb = s.rb from rfl]
  repeat' split
  all_goals rfl

theorem execOut_widen (a : Arg) : execOut a (s.widen pre post) = widenOut pre post (execOut a s) := by
  simp only [execOut, readValue_widen]
  split
  · rfl
  · simp [widenOut, State.widen, State.emit, State.advance]

/-- R140: IN with a value queued takes the same value when more are queued behind it. -/
theorem execIn_widen (d : Arg) (hq : s.inq ≠ [] ∨ post = []) :
    execIn d (s.widen pre post) = widenOut pre post (execIn d s) := by
  cases hinq : s.inq with
  | nil =>
    have hpost : post = [] := hq.resolve_left (not_not.2 hinq)
    have hempty : (s.widen pre post).inq = [] := by simp [State.widen, hinq, hpost]
    rw [execIn_of_empty hinq, execIn_of_empty hempty]
    rfl
  | cons v rest =>
    have hcons : (s.widen pre post).inq = v :: (rest ++ post) := by simp [State.widen, hinq]
    simp only [execIn, hinq, hcons, writeAddress_widen]
    split <;> rfl

/-- Every instruction does the same to a widened state, an IN on an empty queue apart. -/
theorem exec_widen (i : Instr) (hq : (∀ d, i ≠ .inp d) ∨ s.inq ≠ [] ∨ post = []) :
    exec i (s.widen pre post) = widenOut pre post (exec i s) := by
  cases i with
  | add a b d => exact binaryOp_widen _ _ _ _ _
  | mul a b d => exact binaryOp_widen _ _ _ _ _
  | lt a b d => exact binaryOp_widen _ _ _ _ _
  | eq a b d => exact binaryOp_widen _ _ _ _ _
  | jt c g => exact jumpIf_widen _ _ _ _
  | jf c g => exact jumpIf_widen _ _ _ _
  | arb a => exact execArb_widen a
  | out a => exact execOut_widen a
  | inp d => exact execIn_widen d (hq.resolve_left fun h => h d rfl)
  | hlt => rfl

/-- R174: a step that does not pause, or that finds nothing more queued, does the same to a widened state. -/
theorem step_widen (h : step s = .next t) (hpause : t.status ≠ .pendingInput ∨ post = []) (hs : s.status = .running) :
    step (s.widen pre post) = .next (t.widen pre post) := by
  have hs' : (s.widen pre post).status = .running := hs
  obtain ⟨-, f, hfetch, rfl⟩ | ⟨-, i, hfetch, hexec⟩ | ⟨hidle, -⟩ := step_cases h
  · exact step_of_fetch_error hs' hfetch
  · have hq : (∀ d, i ≠ .inp d) ∨ s.inq ≠ [] ∨ post = [] := by
      by_contra hno
      push Not at hno
      obtain ⟨⟨d, rfl⟩, hempty, hpost⟩ := hno
      cases (execIn_of_empty hempty).symm.trans hexec
      exact hpause.elim (fun hne => hne rfl) hpost
    rw [step_of_fetch hs' hfetch, exec_widen i hq, hexec]
    rfl
  · exact absurd hs hidle

/-- R141, R172: what is in `OUTBUF` before the outputs of a loop stays before them. -/
theorem runLoop_widen {fuel : Nat} (h : runLoop fuel s = some u) :
    runLoop fuel (s.widen pre []) = some (u.widen pre []) := by
  induction fuel generalizing s with
  | zero =>
    obtain ⟨hs, rfl⟩ | ⟨-, k, t, hk, -⟩ := runLoop_cases h
    · exact runLoop_stopped (s := u.widen pre []) hs 0
    · cases hk
  | succ fuel ih =>
    obtain ⟨hs, rfl⟩ | ⟨hs, k, t, hk, hstep, hloop⟩ := runLoop_cases h
    · exact runLoop_stopped (s := u.widen pre []) hs _
    · cases hk
      rw [runLoop_step (s := s.widen pre []) hs (step_widen hstep (.inr rfl) hs)]
      exact ih hloop

/-- `u` with a run cycle in progress and `values` queued: where a paused run goes on (R174). -/
def State.resumed (u : State) (values : List Word) : State := { u.addInputs values with status := .running }

/-- R174: a loop that pauses, with the inputs queued from the start, comes by the state where the paused run goes on. -/
theorem runLoop_addInputs {fuel more : Nat} {values : List Word} (h : runLoop fuel s = some u) (hs : s.status = .running)
    (hu : u.status = .pendingInput) (hresumed : runLoop more (u.resumed values) = some v) :
    ∃ enough, runLoop enough (s.addInputs values) = some v := by
  induction fuel generalizing s with
  | zero =>
    obtain ⟨hidle, -⟩ | ⟨-, k, t, hk, -⟩ := runLoop_cases h
    · exact absurd hs hidle
    · cases hk
  | succ fuel ih =>
    obtain ⟨hidle, -⟩ | ⟨-, k, t, hk, hstep, hloop⟩ := runLoop_cases h
    · exact absurd hs hidle
    · cases hk
      by_cases ht : t.status = .running
      · obtain ⟨enough, hrun⟩ := ih hloop ht
        have hsame : step (s.addInputs values) = .next (t.addInputs values) :=
          step_widen (pre := []) hstep (.inl (by simp [ht])) hs
        exact ⟨enough + 1, by rw [runLoop_step (s := s.addInputs values) hs hsame, hrun]⟩
      · obtain rfl : t = u := Option.some.inj ((runLoop_stopped ht fuel).symm.trans hloop)
        obtain ⟨-, rfl, -⟩ := step_of_pendingInput hs hstep hu
        have hback : s.addInputs values = s.pause.resumed values := by
          simp [State.resumed, State.addInputs, State.pause, hs]
        exact ⟨more, hback ▸ hresumed⟩

end Sys2Proof.Machine

open Sys2Proof.Machine

/-- Settles O48: the run with the inputs queued at once passes where the first `RUN` paused, with the first outputs in `OUTBUF`,
and goes on from there as the second `RUN` does. -/
theorem resumedRunEqualsInputsQueuedAtOnce : Obligations.ResumedRunEqualsInputsQueuedAtOnce := by
  intro fuel more s u v values hfirst hu hsecond
  have hs : s.status ≠ .faulted := by
    intro hs
    rw [runCycle_of_faulted hs] at hfirst
    cases hfirst
    cases hs.symm.trans hu
  have hopening : (s.addInputs values).beginRun = s.beginRun.addInputs values := by
    rw [State.beginRun_of_not_faulted hs, State.beginRun_of_not_faulted (s := s.addInputs values) hs]
    rfl
  have hresumed : (u.addInputs values).beginRun.widen u.outbuf [] = u.resumed values := by
    have hne : (u.addInputs values).status ≠ .faulted := by simp [hu]
    rw [State.beginRun_of_not_faulted hne]
    simp [State.widen, State.resumed, State.addInputs]
  have hfinal : v.widen u.outbuf [] = { v with outbuf := u.outbuf ++ v.outbuf } := by
    simp [State.widen]
  have hrest : runLoop more (u.resumed values) = some { v with outbuf := u.outbuf ++ v.outbuf } :=
    hresumed ▸ hfinal ▸ runLoop_widen hsecond
  have hrunning : s.beginRun.status = .running := by simp [State.beginRun_status, hs]
  obtain ⟨enough, hrun⟩ := runLoop_addInputs hfirst hrunning hu hrest
  exact ⟨enough, by rw [runCycle, hopening, hrun]⟩
end

