-- ==== Sys2Proof/Proofs/Host.lean ====
section
/-! PROOFS. The host's transactions that take no step, and several machines under one host (spec/46_run_cycle_host.md sections 1,
3 and 4, spec/70_reset_and_hazards.md section 1): a transaction touches the machine it names and no other. -/

namespace Sys2Proof.Machine

variable {s u : State} {fuel k j : Nat} {t : Transaction} {r : Reply} {sys sys' : Instances}

/-! ## One transaction -/

/-- R170: no transaction is made while the core runs. -/
theorem transact_of_running (hs : s.status = .running) : transact fuel t s = .notLegal :=
  if_pos hs

/-- R178: `NEW` is made in every other status. -/
theorem transact_new (hs : s.status ≠ .running) (image : List Word) :
    transact fuel (.new image) s = .made (State.new image) .nothing :=
  if_neg hs

/-- R171: so is `ADD_INPUTS`. -/
theorem transact_addInputs (hs : s.status ≠ .running) (values : List Word) :
    transact fuel (.addInputs values) s = .made (s.addInputs values) .nothing :=
  if_neg hs

/-- R180: a `PEEK` returns what is read and leaves the state. -/
theorem transact_peek {what : Peek} {value : PeekValue} (hs : s.status ≠ .running) (hread : s.peek what = some value) :
    transact fuel (.peek what) s = .made s (.value value) := by
  simp [transact, hs, hread]

/-- R180: a `PEEK` that is made leaves the state. -/
theorem transact_peek_made {what : Peek} (h : transact fuel (.peek what) s = .made u r) : u = s := by
  unfold transact at h
  split at h
  case isTrue => cases h
  case isFalse =>
    cases hread : s.peek what <;> simp only [hread, reduceCtorEq, Transacted.made.injEq] at h
    exact h.1.symm

/-- R204, D16: no transaction but `NEW` changes the status or the record of a faulted machine. -/
theorem faulted_of_transact (hs : s.status = .faulted) (ht : ∀ image, t ≠ .new image) (h : transact fuel t s = .made u r) :
    u.status = .faulted ∧ u.fault = s.fault := by
  have hne : s.status ≠ .running := by simp [hs]
  cases t with
  | new image => exact absurd rfl (ht image)
  | addInputs values =>
    rw [transact_addInputs hne] at h
    cases h
    exact ⟨hs, rfl⟩
  | run =>
    obtain ⟨hrun, -⟩ := transact_run_made h
    rw [runCycle_of_faulted hs] at hrun
    cases hrun
    exact ⟨hs, rfl⟩
  | peek what =>
    obtain rfl := transact_peek_made h
    exact ⟨hs, rfl⟩

/-! ## Several machines -/

/-- R182: a transaction in a schedule is one on the machine it names, and changes that one only. -/
theorem transactAt_made (h : transactAt fuel sys k t = some (sys', r)) :
    ∃ s u, sys[k]? = some s ∧ transact fuel t s = .made u r ∧ sys' = sys.set k u := by
  unfold transactAt at h
  cases hk : sys[k]? with
  | none => simp [hk] at h
  | some s =>
    cases hmade : transact fuel t s with
    | notLegal => simp [hk, hmade] at h
    | notEnded => simp [hk, hmade] at h
    | made u reply =>
      simp only [hk, hmade, Option.some.injEq, Prod.mk.injEq] at h
      obtain ⟨rfl, rfl⟩ := h
      exact ⟨s, u, rfl, hmade, rfl⟩

theorem transactAll_cons {e : Nat × Transaction} {rest : List (Nat × Transaction)} {replies : List Reply}
    (h : transactAll fuel sys (e :: rest) = some (sys', replies)) :
    ∃ mid r rs, transactAt fuel sys e.1 e.2 = some (mid, r) ∧ transactAll fuel mid rest = some (sys', rs) ∧
      replies = r :: rs := by
  unfold transactAll at h
  cases hat : transactAt fuel sys e.1 e.2 with
  | none => simp [hat] at h
  | some answer =>
    obtain ⟨mid, r⟩ := answer
    cases hall : transactAll fuel mid rest with
    | none => simp [hat, hall] at h
    | some final =>
      simp only [hat, hall, Option.some.injEq, Prod.mk.injEq] at h
      obtain ⟨rfl, rfl⟩ := h
      exact ⟨mid, r, final.2, rfl, hall, rfl⟩

theorem transactSeq_cons {ts : List Transaction} {v : State} {rs : List Reply} (hmade : transact fuel t s = .made u r)
    (hseq : transactSeq fuel u ts = some (v, rs)) : transactSeq fuel s (t :: ts) = some (v, r :: rs) := by
  simp [transactSeq, hmade, hseq]

section Own

variable (t : Transaction) (r : Reply) (rest : List (Nat × Transaction)) (rs : List Reply)

theorem ownTransactions_cons_self : ownTransactions k ((k, t) :: rest) = t :: ownTransactions k rest := by
  simp [ownTransactions]

theorem ownTransactions_cons_other (h : j ≠ k) : ownTransactions k ((j, t) :: rest) = ownTransactions k rest := by
  simp [ownTransactions, h]

theorem ownReplies_cons_self : ownReplies k ((k, t) :: rest) (r :: rs) = r :: ownReplies k rest rs := by
  simp [ownReplies]

theorem ownReplies_cons_other (h : j ≠ k) : ownReplies k ((j, t) :: rest) (r :: rs) = ownReplies k rest rs := by
  simp [ownReplies, h]

end Own

/-- R182: a schedule neither makes nor discards machines. -/
theorem length_of_transactAll {sched : List (Nat × Transaction)} {replies : List Reply}
    (h : transactAll fuel sys sched = some (sys', replies)) : sys'.length = sys.length := by
  induction sched generalizing sys replies with
  | nil =>
    cases h
    rfl
  | cons e rest ih =>
    obtain ⟨mid, r, rs, hat, hall, -⟩ := transactAll_cons h
    obtain ⟨s, u, -, -, rfl⟩ := transactAt_made hat
    rw [ih hall, List.length_set]

/-- R182, R212: each machine of a schedule ends, and answers, as its own transactions alone make it. -/
theorem transactSeq_of_transactAll {sched : List (Nat × Transaction)} {replies : List Reply}
    (h : transactAll fuel sys sched = some (sys', replies)) (hk : sys[k]? = some s) :
    ∃ u, sys'[k]? = some u ∧
      transactSeq fuel s (ownTransactions k sched) = some (u, ownReplies k sched replies) := by
  induction sched generalizing sys s replies with
  | nil =>
    cases h
    exact ⟨s, hk, rfl⟩
  | cons e rest ih =>
    obtain ⟨mid, r, rs, hat, hall, rfl⟩ := transactAll_cons h
    obtain ⟨s', u, hj, hmade, rfl⟩ := transactAt_made hat
    obtain ⟨j, t⟩ := e
    by_cases hjk : j = k
    · subst hjk
      obtain rfl : s' = s := Option.some.inj (hj.symm.trans hk)
      have hlt : j < sys.length := (List.getElem?_eq_some_iff.1 hk).1
      obtain ⟨v, hv, hseq⟩ := ih hall (List.getElem?_set_self hlt)
      refine ⟨v, hv, ?_⟩
      rw [ownTransactions_cons_self, ownReplies_cons_self]
      exact transactSeq_cons hmade hseq
    · obtain ⟨v, hv, hseq⟩ := ih hall ((List.getElem?_set_ne hjk).trans hk)
      refine ⟨v, hv, ?_⟩
      rw [ownTransactions_cons_other _ _ hjk, ownReplies_cons_other _ _ _ _ hjk]
      exact hseq

end Sys2Proof.Machine

open Sys2Proof.Machine

/-- Settles O51: by induction on the schedule; the first transaction is the machine's own or leaves it as it was. -/
theorem instancesDoNotInteract : Obligations.InstancesDoNotInteract :=
  fun _ _ _ _ _ h => ⟨length_of_transactAll h, fun _ _ hk => transactSeq_of_transactAll h hk⟩

/-- Settles O44: a faulted machine takes no step, and no transaction but `NEW` writes `STATUS` or `FAULT` of one. -/
theorem faultedIsPermanentUntilNew : Obligations.FaultedIsPermanentUntilNew := by
  intro s hs
  have hne : s.status ≠ .running := by simp [hs]
  refine ⟨step_idle hne, fun fuel => ?_, fun fuel tr u r htr hmade => faulted_of_transact hs htr hmade,
    fun fuel image => ⟨transact_new hne image, rfl, rfl⟩⟩
  exact transact_run hne (runCycle_of_faulted hs fuel) (State.runResult_eq_some.2 (.inr (.inr ⟨hs, rfl⟩)))

/-- Settles O49: `ADD_INPUTS` is made, and is `State.addInputs`. -/
theorem addInputsOnlyAppends : Obligations.AddInputsOnlyAppends :=
  fun _ _ values hs => transact_addInputs hs values

/-- Settles O50: the status is looked at before the transaction, and `PEEK` reads one piece of state. -/
theorem noTransactionWhileRunningAndPeekIsPure : Obligations.NoTransactionWhileRunningAndPeekIsPure := by
  refine ⟨fun fuel s tr hs => transact_of_running hs, fun fuel s hs => ⟨fun a ha => ?_, ?_⟩⟩
  · exact transact_peek hs (if_pos ha)
  · exact ⟨transact_peek hs rfl, transact_peek hs rfl, transact_peek hs rfl, transact_peek hs rfl, transact_peek hs rfl,
      transact_peek hs rfl⟩

/-- Settles O3: `State.new` is the reset state with the image loaded. -/
theorem resetLeavesTable10C : Obligations.ResetLeavesTable10C :=
  ⟨rfl, fun image hfit => ⟨fun a => Memory.read_new a image hfit, rfl, rfl, rfl, rfl, rfl, rfl, rfl, rfl⟩⟩

/-- Settles O58: `NEW` does not look at the state it discards. -/
theorem newDiscardsTheWholeState : Obligations.NewDiscardsTheWholeState :=
  fun _ _ image hs => ⟨State.new image, transact_new hs image, rfl, rfl, rfl, rfl, rfl, rfl, rfl,
    fun hfit a => Memory.read_new a image hfit⟩

/-- Settles O57: the two columns of codes, row by row. -/
theorem codesOfTables10BAnd60A : Obligations.CodesOfTables10BAnd60A := by
  unfold Obligations.CodesOfTables10BAnd60A
  decide
end

