-- ==== Sys2Proof/Proofs/AssemblyLine.lean ====
section
/-! PROOFS. A line of a listing with numbers for its operand words (spec/30_encoding.md R94): the numbers are words, and
the header and the words put the instruction together again. -/

namespace Sys2Proof.Machine

/-- R6: the value of a word is a word, and that word. -/
theorem narrow_toInt (w : Word) : narrow w.toInt = some w := by
  have hlow := BitVec.le_toInt w
  have hhigh := BitVec.toInt_lt (x := w)
  refine (narrow_some _ _).2 ⟨?_, BitVec.ofInt_toInt.symm⟩
  simp only [IsWord, Config.wMin, Config.wMax]
  omega

/-- R94: the line that writes an instruction with numbers for its operand words. -/
def numberArg (a : Arg) : AsmArg := ⟨a.mode, .number a.word.toInt⟩

/-- R94: numbers stand for the words they are the values of. -/
theorem asmWords_numbers (syms : List (String × Nat)) (args : List Arg) :
    asmWords syms ((args.map numberArg).map AsmArg.value) = some (args.map Arg.word) := by
  induction args with
  | nil => rfl
  | cons a args ih =>
    have hword : (numberArg a).value.word? syms = some a.word := narrow_toInt a.word
    simp only [List.map_cons, asmWords, hword, ih]

/-- The mode of operand `k + 1` of a line, position where there is none. -/
def lineMode (args : List AsmArg) (k : Nat) : Mode := ((args[k]?).map AsmArg.mode).getD .position

/-- R94, R113: the modes of the line and the operand words give the instruction back. -/
theorem instr_of_line (i : Instr) :
    (Header.mk i.opcode (lineMode (i.args.map numberArg) 0) (lineMode (i.args.map numberArg) 1)
      (lineMode (i.args.map numberArg) 2)).instr (i.args.map Arg.word) = i := by
  cases i <;> rfl

/-- R94, R83: the line of an instruction assembles to its cells when the instruction is well formed. -/
theorem cells?_instr (syms : List (String × Nat)) (i : Instr) :
    AsmLine.cells? syms (.instr i.opcode (i.args.map numberArg)) = if i.WellFormed then some (encode i) else none := by
  have hline := instr_of_line i
  simp only [lineMode] at hline
  simp only [AsmLine.cells?, asmWords_numbers, List.length_map, Instr.length_args, if_pos, hline]

end Sys2Proof.Machine

open Sys2Proof.Machine

/-- Settles O56: the listing is the one line. -/
theorem assembledLineIsTheEncoding : Obligations.AssembledLineIsTheEncoding := by
  intro i
  have hcells := cells?_instr [] i
  unfold numberArg at hcells
  by_cases hi : i.WellFormed
  · rw [if_pos hi] at hcells ⊢
    simp only [assemble, symbols, asmCells, hcells, List.append_nil]
  · rw [if_neg hi] at hcells ⊢
    simp only [assemble, symbols, asmCells, hcells]
end
